-- ==== Sys2Proof/Word.lean ====
section
/-! DEFINITION. The machine's words: bytes, program-counter values and register numbers. -/

namespace Sys2Proof

/-- A byte: 8 bits, an unsigned integer 0 to 255. Registers, cells, literals, `FL` and elements of
`OUT` are bytes (`10_state.md` R9, R16, R24; `20_memory.md` R28). -/
abbrev Byte := BitVec 8

/-- A program-counter value: 9 bits, of which a run reaches 0 to 256 (`10_state.md` R14). -/
abbrev PcWord := BitVec 9

/-- The number of a general register, 0 to 7 (`10_state.md` R9). -/
abbrev Reg := Fin 8

end Sys2Proof
end

