-- ==== Sys2Proof/Config.lean ====
section
/-! DEFINITION. The implementation parameters of `00_scope.md` R7. -/

namespace Sys2Proof

/-- The ten mnemonics of the closed instruction table (`30_encoding.md` R47), in its order. -/
inductive Mnemonic where
  | ldi | prn | mul | cmp | push | pop | jmp | jeq | jne | hlt
  deriving DecidableEq, Repr

/-- `OPC`: the map from mnemonic to opcode byte, a parameter of the spec (`30_encoding.md` R47, D3).
Its default value is `opcodes` in Decode.lean. -/
abbrev OpcodeMap := Mnemonic → Byte

/-- The one thing R47 requires of `OPC`: "the ten values are pairwise distinct". -/
def OpcodeMap.Distinct (opc : OpcodeMap) : Prop :=
  ∀ m n : Mnemonic, opc m = opc n → m = n

/-- `MEMSIZE` (R7): the number of memory cells. -/
abbrev Config.memSize : Nat := 256

/-- `SP` (R7, R11): the constant index of the stack-pointer register. -/
def Config.sp : Reg := 7

/-- `SP_RESET` (R7, D2; log entry 2): the reset value of `x[7]`. -/
def Config.spReset : Byte := 0xF4

/-- `PC_RESET` (R7, D8; log entry 2). -/
def Config.pcReset : PcWord := 0

/-- `FL_RESET` (R7, D7; log entry 2). -/
def Config.flReset : Byte := 0x00

/-- What a cell holds that neither the loader nor a PUSH wrote (`10_state.md` R23, D9; log entry 3). -/
def Config.unloadedByte : Byte := 0x00

end Sys2Proof
end

