-- ==== Sys2Proof/Machine/State.lean ====
section
/-! DEFINITION. The machine's state, its faults and refusals, and the state right after reset. -/

namespace Sys2Proof.Machine

/-- The faults of CORE, with the information each records (`60_exceptions.md` R91). A fault is TAKEN: the step
that raises one answers a next state whose `run` is `faulted` (`State.raise`, R94), so no step answers
`Host.Outcome.fault` (log entry 6). All of them are safe: the machine stops as the spec says. -/
inductive Fault where
  /-- Code 1, raised by decoding when the opcode byte is none of the ten (`30_encoding.md` R50). Safe. -/
  | illegalInstruction (op : Byte) (pc : PcWord)
  /-- Code 2, raised by the ALU taken alone on an operation name outside ADD, MUL, CMP (`42_alu.md` R75); no
  program raises it. Safe. -/
  | unsupportedOperation (operation : String)
  /-- Code 3, raised by operand validation on a register-index byte above 7 (`30_encoding.md` R52). Safe. -/
  | illegalOperand (op : Byte) (pc : PcWord) (v : Byte)
  /-- Code 4, raised by the instruction fetch when a needed byte lies above address 255 (`20_memory.md` R33).
  The address is a natural number: it does not wrap. Safe. -/
  | addressRange (addr : Nat)
  deriving DecidableEq, Repr

/-- What the model declines to give a meaning. -/
inductive Refusal where
  /-- Raised by an arm of `exec` whose instruction has no meaning yet; no arm is such now. Safe. -/
  | notModelled (mnemonic : String)
  /-- Raised by `launch`, before any step, for an image of more than 256 bytes
  (`70_reset_and_hazards.md` R113: "a model refuses it at the boundary"). Safe. -/
  | imageTooLong (length : Nat)
  deriving DecidableEq, Repr

/-- The run state (`10_state.md` R20). `Faulted(code, info)` is held as the fault itself; its code is
`Fault.code` (log entry 9). -/
inductive RunState where
  | running
  | halted
  | faulted (f : Fault)
  deriving DecidableEq, Repr

/-- The memory array (`10_state.md` R21, `20_memory.md` R28): the cells that do not hold
`Config.unloadedByte`, as pairs of address and byte with addresses strictly rising (`Memory.wf`). -/
abbrev Memory := List Host.Cell

/-- The canonical form from address `lo` upward. -/
def Memory.wfFrom (lo : Nat) : Memory → Bool
  | [] => true
  | (k, v) :: m =>
    decide (lo ≤ k) && decide (k < Config.memSize) && decide (v ≠ Config.unloadedByte) &&
      Memory.wfFrom (k + 1) m

/-- The canonical form: addresses strictly rising and below 256, no entry equal to what an unlisted address
reads as. Equal memories are then equal lists. -/
def Memory.wf (m : Memory) : Bool := Memory.wfFrom 0 m

/-- The whole state (`10_state.md` R22, R23: "There is no other state"). -/
structure State where
  /-- The general registers `x[0]` to `x[7]` (R9); `x[7]` is the stack pointer (R11). -/
  x : Vector Byte 8
  /-- The program counter (R13, R14). -/
  pc : PcWord
  /-- The flags register `FL` (R16). -/
  fl : Byte
  /-- The memory array (R21). -/
  mem : Memory
  /-- The run state (R20). -/
  run : RunState
  /-- The output history `OUT`, oldest element first (R24). -/
  out : List Byte
  deriving DecidableEq, Repr

/-- The reset state with an empty image, for any `SP_RESET` (`10_state.md` R23; `00_scope.md` R7). -/
def State.resetWith (spReset : Byte) : State where
  x := #v[0, 0, 0, 0, 0, 0, 0, spReset]
  pc := Config.pcReset
  fl := Config.flReset
  mem := []
  run := .running
  out := []

/-- The machine right after reset (`10_state.md` R23; `70_reset_and_hazards.md` R107), no image loaded. -/
def State.reset : State := State.resetWith Config.spReset

end Sys2Proof.Machine
end

