-- ==== Sys2Proof/Machine/Ops.lean ====
section
/-! DEFINITION. The operations over registers, memory and the other state that all meanings share. -/

namespace Sys2Proof.Machine

/-- `trunc8(r) = r mod 256`, in 0 to 255 also for negative `r` (`42_alu.md` R76, D1; log entry 4). -/
def trunc8 (r : Int) : Byte := BitVec.ofInt 8 r

/-- `zext_9(v)`: the same value as a program-counter value (`00_scope.md` §4). -/
def zext9 (v : Byte) : PcWord := BitVec.ofNat 9 v.toNat

/-- The byte at an address; an unlisted one reads as `Config.unloadedByte` (`20_memory.md` R29). -/
def Memory.read : Memory → Nat → Byte
  | [], _ => Config.unloadedByte
  | (k, v) :: m, a => if a = k then v else Memory.read m a

/-- The cell at the head of a canonical memory, left out where it holds what an unlisted address reads as. -/
def Memory.cons (a : Nat) (v : Byte) (m : Memory) : Memory :=
  if v = Config.unloadedByte then m else (a, v) :: m

/-- `MEM[a] <- v` (`20_memory.md` R30), keeping the canonical form. -/
def Memory.write : Memory → Nat → Byte → Memory
  | [], a, v => Memory.cons a v []
  | (k, w) :: m, a, v =>
    if a < k then Memory.cons a v ((k, w) :: m)
    else if a = k then Memory.cons a v m
    else (k, w) :: Memory.write m a v

/-- The bytes of a list at rising addresses from `a`; there is no cell above address 255. -/
def Memory.writeList (m : Memory) (a : Nat) : List Byte → Memory
  | [] => m
  | v :: vs =>
    Memory.writeList (if a < Config.memSize then Memory.write m a v else m) (a + 1) vs

/-- `x[r]` (`10_state.md` R10: "get(index)"). -/
def State.reg (s : State) (r : Reg) : Byte := s.x[r]

/-- `x[r] <- v` (`10_state.md` R10: "set(index, value)"). No register is hardwired (R9). -/
def State.setReg (s : State) (r : Reg) (v : Byte) : State := { s with x := s.x.set r v }

/-- `MemRead(a, 1)` (`20_memory.md` R29). -/
def State.memRead (s : State) (a : Byte) : Byte := Memory.read s.mem a.toNat

/-- The opcode byte of the instruction being executed: the byte fetched at `pc`, which no part of a step before or
during operand validation changes (`40_engine_cycle.md` R58: `op <- MemRead(pc, 1)`; `10_state.md` R13). -/
def State.opcodeByte (s : State) : Byte := Memory.read s.mem s.pc.toNat

/-- `MemWrite(a, 1, v)` (`20_memory.md` R30). -/
def State.memWrite (s : State) (a v : Byte) : State := { s with mem := Memory.write s.mem a.toNat v }

/-- `FL <- v`, the whole byte (`10_state.md` R17). -/
def State.setFl (s : State) (v : Byte) : State := { s with fl := v }

/-- `OUT <- OUT ++ [v]` (`10_state.md` R24). -/
def State.emit (s : State) (v : Byte) : State := { s with out := s.out ++ [v] }

/-- `pc <- pc + n`, a natural-number sum that does not wrap to 0 (`40_engine_cycle.md` R64). -/
def State.advance (s : State) (n : Nat) : State := { s with pc := BitVec.ofNat 9 (s.pc.toNat + n) }

/-- `pc <- target`; a jump does not also get the sequential increment (`44_branch.md` R83). -/
def State.jump (s : State) (target : PcWord) : State := { s with pc := target }

/-- `run <- Halted` (`45_halt.md` R88). -/
def State.halt (s : State) : State := { s with run := .halted }

/-- The numeric code of a fault, `ERRCODE` (`60_exceptions.md` R91, D11). -/
def Fault.code : Fault → Nat
  | .illegalInstruction _ _ => 1
  | .unsupportedOperation _ => 2
  | .illegalOperand _ _ _ => 3
  | .addressRange _ => 4

/-- TAKING A FAULT: `raise F(info)` performs exactly `run <- Faulted(code(F), info)` (`60_exceptions.md` R94).
No `pc` or status is saved, there is no handler, and there is no return from a fault (R96). -/
def State.raise (s : State) (f : Fault) : State := { s with run := .faulted f }

/-- The outcome of a step that raises a fault: the fault is taken (log entry 6). -/
def faulting (s : State) (f : Fault) : Host.Outcome State Fault Refusal := .next (s.raise f)

/-- The outcome of asking a stopped engine for a step: "the engine takes no step and no state changes"
(`40_engine_cycle.md` R58). DESIGN CHOICE, log entry 7. -/
def noStep (s : State) : Host.Outcome State Fault Refusal := .next s

end Sys2Proof.Machine
end

