-- ==== Sys2Proof/Machine/Flags.lean ====
section
/-! DEFINITION. The flags byte: its values, its bits and its one computation. -/

namespace Sys2Proof.Machine

/-- Equal, bit 0 (`10_state.md` R16). -/
def flEqual : Byte := 0x01

/-- Greater, bit 1 (`10_state.md` R16). -/
def flGreater : Byte := 0x02

/-- Less, bit 2 (`10_state.md` R16). -/
def flLess : Byte := 0x04

/-- `FL[0]`, named `E` (`10_state.md` R16). -/
def flagE (fl : Byte) : Bool := fl.getLsbD 0

/-- `FL[1]`, named `G` (`10_state.md` R16). -/
def flagG (fl : Byte) : Bool := fl.getLsbD 1

/-- `FL[2]`, named `L` (`10_state.md` R16). -/
def flagL (fl : Byte) : Bool := fl.getLsbD 2

/-- The whole byte CMP writes for the left operand `x` and the right operand `y`, compared as unsigned numbers
(`42_alu.md` R74; the direction of Greater and Less is D20, log entry 13). -/
def compareFlags (x y : Byte) : Byte :=
  if x.toNat = y.toNat then flEqual
  else if y.toNat < x.toNat then flGreater
  else flLess

/-- The condition of JEQ, a test of the whole byte (`44_branch.md` R85: "if Flags == Equal"). JNE tests its
negation (R86). -/
def equalHolds (s : State) : Bool := s.fl == flEqual

end Sys2Proof.Machine
end

