-- ==== Sys2Proof/Machine/Operands.lean ====
section
/-! DEFINITION. The operand forms: register index, literal, the stack through `x[7]`, and the jump target. -/

namespace Sys2Proof.Machine

/-- A register-index operand is the whole byte: 0 to 7 selects a register, 8 to 255 is invalid, no bit is
masked (`30_encoding.md` R46). -/
def regIndex (v : Byte) : Option Reg :=
  if h : v.toNat < 8 then some ⟨v.toNat, h⟩ else none

/-- The operand byte that selects a register. -/
def regByte (r : Reg) : Byte := BitVec.ofNat 8 r.val

/-- Validate a register-index operand `v` of the instruction at `pc`, then go on with the register; an invalid one
raises IllegalOperand(op, pc, v), `op` being the byte fetched at `pc`, before any part of the instruction
(`30_encoding.md` R52). -/
def withReg (v : Byte) (s : State) (k : Reg → Host.Outcome State Fault Refusal) :
    Host.Outcome State Fault Refusal :=
  match regIndex v with
  | some r => k r
  | none => faulting s (.illegalOperand s.opcodeByte s.pc v)

/-- Validate two register-index operands, `a` before `b` (`30_encoding.md` R52). -/
def withRegs (a b : Byte) (s : State) (k : Reg → Reg → Host.Outcome State Fault Refusal) :
    Host.Outcome State Fault Refusal :=
  withReg a s fun ra => withReg b s fun rb => k ra rb

/-- The literal operand of LDI: the whole byte, not extended, scaled or shifted (`30_encoding.md` R46). -/
def literal (b : Byte) : Byte := b

/-- The stack pointer after the pre-decrement of PUSH, which is also the address PUSH stores to
(`43_stack.md` R79, R80). -/
def pushAddress (s : State) : Byte := trunc8 ((s.reg Config.sp).toNat - 1)

/-- The address POP loads from: the stack pointer before the step (`43_stack.md` R79, R81). -/
def popAddress (s : State) : Byte := s.reg Config.sp

/-- The post-increment of POP, of the stack pointer as it then is (`43_stack.md` R81). -/
def popIncrement (s : State) : Byte := trunc8 ((s.reg Config.sp).toNat + 1)

/-- The target of a jump: the register's value as an absolute address (`44_branch.md` R83). -/
def jumpTarget (s : State) (r : Reg) : PcWord := zext9 (s.reg r)

end Sys2Proof.Machine
end

