-- ==== Sys2Proof/Machine/Alu.lean ====
section
/-! DEFINITION. The ALU's contract and its three operations, and MUL and CMP, which reach it (42_alu.md). -/

namespace Sys2Proof.Machine

/-- The closed set of ALU operations (R71). ADD has no opcode (R72, D10). -/
inductive AluOp where
  | add
  | mul
  | cmp
  deriving DecidableEq, Repr

/-- ALU `execute(operation, a, b)` on the closed set (R71): both registers are read, then the result goes to
`x[a]` (ADD R72, MUL R73; modulo 256, no flag) or to `FL` (CMP R74). The `pc` is the engine's. -/
def aluExecute (op : AluOp) (a b : Reg) (s : State) : State :=
  match op with
  | .add => s.setReg a (trunc8 ((s.reg a).toNat + (s.reg b).toNat))
  | .mul => s.setReg a (trunc8 ((s.reg a).toNat * (s.reg b).toNat))
  | .cmp => s.setFl (compareFlags (s.reg a) (s.reg b))

/-- The operations by the names the source dispatches on (R71, D19; log entry 10). -/
def aluOpOfName (operation : String) : Option AluOp :=
  if operation = "ADD" then some .add
  else if operation = "MUL" then some .mul
  else if operation = "CMP" then some .cmp
  else none

/-- The ALU taken alone, with an operation input wider than the closed set (R75): any other name raises
UnsupportedOperation and changes no register and no flag. The engine never calls it so. -/
def aluExecuteNamed (operation : String) (a b : Reg) (s : State) : Host.Outcome State Fault Refusal :=
  match aluOpOfName operation with
  | some op => .next (aluExecute op a b s)
  | none => faulting s (.unsupportedOperation operation)

/-- MUL (R73): the engine invokes the ALU with MUL and advances `pc`. -/
def execMul (a b : Byte) (s : State) : Host.Outcome State Fault Refusal :=
  withRegs a b s fun ra rb => .next ((aluExecute .mul ra rb s).advance 3)

/-- CMP (R74): the engine invokes the ALU with CMP and advances `pc`. -/
def execCmp (a b : Byte) (s : State) : Host.Outcome State Fault Refusal :=
  withRegs a b s fun ra rb => .next ((aluExecute .cmp ra rb s).advance 3)

end Sys2Proof.Machine
end

