-- ==== Sys2Proof/Machine/Branch.lean ====
section
/-! DEFINITION. JMP, JEQ and JNE (44_branch.md). -/

namespace Sys2Proof.Machine

/-- JMP (R84). -/
def execJmp (a : Byte) (s : State) : Host.Outcome State Fault Refusal :=
  withReg a s fun ra => .next (s.jump (jumpTarget s ra))

/-- JEQ (R85): the operand is validated whether or not the branch is taken. -/
def execJeq (a : Byte) (s : State) : Host.Outcome State Fault Refusal :=
  withReg a s fun ra =>
    .next (if equalHolds s then s.jump (jumpTarget s ra) else s.advance 2)

/-- JNE (R86): the operand is validated whether or not the branch is taken. -/
def execJne (a : Byte) (s : State) : Host.Outcome State Fault Refusal :=
  withReg a s fun ra =>
    .next (if equalHolds s then s.advance 2 else s.jump (jumpTarget s ra))

end Sys2Proof.Machine
end

