-- ==== Sys2Proof/Machine/Halt.lean ====
section
/-! DEFINITION. HLT (45_halt.md). -/

namespace Sys2Proof.Machine

/-- HLT (R88): `pc <- pc + 1`, then `run <- Halted`. -/
def execHlt (s : State) : Host.Outcome State Fault Refusal := .next (s.advance 1).halt

end Sys2Proof.Machine
end

