-- ==== Sys2Proof/Machine/Stack.lean ====
section
/-! DEFINITION. PUSH and POP (43_stack.md). -/

namespace Sys2Proof.Machine

/-- The effect of PUSH on registers and memory, in the written order (R80; D13, log entry 14): the decrement
first, then the store, whose address and value are both read after it. -/
def pushReg (r : Reg) (s : State) : State :=
  let s1 := s.setReg Config.sp (pushAddress s)
  s1.memWrite (s1.reg Config.sp) (s1.reg r)

/-- The effect of POP on registers, in the written order (R81; D13, log entry 14): the load first, then the
increment of the stack pointer as the load left it. -/
def popReg (r : Reg) (s : State) : State :=
  let s1 := s.setReg r (s.memRead (popAddress s))
  s1.setReg Config.sp (popIncrement s1)

/-- PUSH (R80). -/
def execPush (a : Byte) (s : State) : Host.Outcome State Fault Refusal :=
  withReg a s fun ra => .next ((pushReg ra s).advance 2)

/-- POP (R81). -/
def execPop (a : Byte) (s : State) : Host.Outcome State Fault Refusal :=
  withReg a s fun ra => .next ((popReg ra s).advance 2)

end Sys2Proof.Machine
end

