-- ==== Sys2Proof/Syntax.lean ====
section
/-! DEFINITION. The instructions as the engine reads them: an opcode's row and its raw operand bytes. -/

namespace Sys2Proof

/-- One constructor per row of the opcode table (`30_encoding.md` R47). `a` and `b` are operand_a and
operand_b, the bytes at `pc+1` and `pc+2` as they were fetched; that a register index is at most 7 is
`Instr.wf`, which the engine checks only after decoding (`40_engine_cycle.md` R62). -/
inductive Instr where
  /-- Load the literal `b` into register `a` (R69). -/
  | ldi (a b : Byte)
  /-- Emit register `a` (R70). -/
  | prn (a : Byte)
  /-- Multiply register `a` by register `b` (R73). -/
  | mul (a b : Byte)
  /-- Compare registers `a` and `b` (R74). -/
  | cmp (a b : Byte)
  /-- Push register `a` (R80). -/
  | push (a : Byte)
  /-- Pop into register `a` (R81). -/
  | pop (a : Byte)
  /-- Jump to the address in register `a` (R84). -/
  | jmp (a : Byte)
  /-- Jump if equal (R85). -/
  | jeq (a : Byte)
  /-- Jump if not equal (R86). -/
  | jne (a : Byte)
  /-- Halt (R88). -/
  | hlt
  deriving DecidableEq, Repr

end Sys2Proof
end

