-- ==== Sys2Proof/WellFormed.lean ====
section
/-! DEFINITION. Well-formed instructions: every register-index operand is 0 to 7 (`30_encoding.md` R46, R52, R53). -/

namespace Sys2Proof

/-- The whole byte, taken as an unsigned integer, is a register index (R46). -/
def isRegIndex (v : Byte) : Bool := decide (v.toNat ≤ 7)

/-- R52: both operands of MUL and CMP are checked; the literal of LDI never is. -/
def Instr.wf : Instr → Bool
  | .ldi a _ => isRegIndex a
  | .prn a => isRegIndex a
  | .mul a b => isRegIndex a && isRegIndex b
  | .cmp a b => isRegIndex a && isRegIndex b
  | .push a => isRegIndex a
  | .pop a => isRegIndex a
  | .jmp a => isRegIndex a
  | .jeq a => isRegIndex a
  | .jne a => isRegIndex a
  | .hlt => true

end Sys2Proof
end

