-- ==== Sys2Proof/Decode.lean ====
section
/-! DEFINITION. The opcode map, the decoder and the encoder (`30_encoding.md` R43 to R54). -/

namespace Sys2Proof

/-- The default opcode bytes (R47). They are the spec's own values "from general knowledge, not in
source" (D3, G2): UNVERIFIED, log entry 1. -/
def opcodes : OpcodeMap
  | .ldi => 0b10000010
  | .prn => 0b01000111
  | .mul => 0b10100010
  | .cmp => 0b10100111
  | .push => 0b01000101
  | .pop => 0b01000110
  | .jmp => 0b01010100
  | .jeq => 0b01010101
  | .jne => 0b01010110
  | .hlt => 0b00000001

/-- The rows of the table, in its order (R47). -/
def Mnemonic.all : List Mnemonic :=
  [.ldi, .prn, .mul, .cmp, .push, .pop, .jmp, .jeq, .jne, .hlt]

/-- The four formats (R45). -/
inductive Format where
  /-- `Z`: no operand. -/
  | z
  /-- `R`: one register. -/
  | r
  /-- `RR`: two registers. -/
  | rr
  /-- `RI`: a register and an 8-bit literal. -/
  | ri
  deriving DecidableEq, Repr

/-- The format of each row (R45, R47). -/
def Mnemonic.format : Mnemonic → Format
  | .ldi => .ri
  | .mul | .cmp => .rr
  | .prn | .push | .pop | .jmp | .jeq | .jne => .r
  | .hlt => .z

/-- The number of operand bytes of a format (R44, R45). -/
def Format.arity : Format → Nat
  | .z => 0
  | .r => 1
  | .rr => 2
  | .ri => 2

/-- The number of operand bytes of an instruction (R44). -/
def Mnemonic.arity (m : Mnemonic) : Nat := m.format.arity

/-- The instruction of a row with its operand bytes; a byte the row does not have is ignored. -/
def Mnemonic.withOperands : Mnemonic → Byte → Byte → Instr
  | .ldi, a, b => .ldi a b
  | .prn, a, _ => .prn a
  | .mul, a, b => .mul a b
  | .cmp, a, b => .cmp a b
  | .push, a, _ => .push a
  | .pop, a, _ => .pop a
  | .jmp, a, _ => .jmp a
  | .jeq, a, _ => .jeq a
  | .jne, a, _ => .jne a
  | .hlt, _, _ => .hlt

/-- The row an instruction belongs to. -/
def Instr.mnemonic : Instr → Mnemonic
  | .ldi _ _ => .ldi
  | .prn _ => .prn
  | .mul _ _ => .mul
  | .cmp _ _ => .cmp
  | .push _ => .push
  | .pop _ => .pop
  | .jmp _ => .jmp
  | .jeq _ => .jeq
  | .jne _ => .jne
  | .hlt => .hlt

/-- Instruction length: 1 + arity bytes (R44). -/
def Instr.length (i : Instr) : Nat := 1 + i.mnemonic.arity

/-- Why bytes do not decode. -/
inductive DecodeError where
  /-- There is no byte at this offset from the opcode, and the instruction needs one. -/
  | noByte (offset : Nat)
  /-- The opcode byte is none of the ten (R50). -/
  | illegalOpcode (op : Byte)
  deriving DecidableEq, Repr

/-- Exact match of the whole opcode byte against the ten values (R49, R60). -/
def decodeOpcode (opc : OpcodeMap) (op : Byte) : Option Mnemonic :=
  Mnemonic.all.find? fun m => opc m == op

/-- Exactly the operand bytes the row has, in ascending order (`40_engine_cycle.md` R61). -/
def decodeOperands (m : Mnemonic) (byteAt : Nat → Option Byte) : Except DecodeError Instr :=
  match m.arity with
  | 0 => .ok (m.withOperands 0 0)
  | 1 =>
    match byteAt 1 with
    | none => .error (.noByte 1)
    | some a => .ok (m.withOperands a 0)
  | _ =>
    match byteAt 1 with
    | none => .error (.noByte 1)
    | some a =>
      match byteAt 2 with
      | none => .error (.noByte 2)
      | some b => .ok (m.withOperands a b)

/-- The one decoder, over any source of bytes (`byteAt k` is the byte `k` places after the opcode): the
opcode, its row, then the operand bytes that row has (R54; `40_engine_cycle.md` R58, R59 to R61). Nothing
after an illegal opcode is looked at. -/
def decodeFrom (opc : OpcodeMap) (byteAt : Nat → Option Byte) : Except DecodeError Instr :=
  match byteAt 0 with
  | none => .error (.noByte 0)
  | some op =>
    match decodeOpcode opc op with
    | none => .error (.illegalOpcode op)
    | some m => decodeOperands m byteAt

/-- The decoder on a list of bytes, for any opcode map. -/
def decodeWith (opc : OpcodeMap) (bytes : List Byte) : Except DecodeError Instr :=
  decodeFrom opc fun k => bytes[k]?

/-- The decoder on a list of bytes, with the default opcode map. -/
def decode (bytes : List Byte) : Except DecodeError Instr := decodeWith opcodes bytes

/-- The bytes of an instruction (R43 to R47), for any opcode map. -/
def encodeWith (opc : OpcodeMap) : Instr → List Byte
  | .ldi a b => [opc .ldi, a, b]
  | .prn a => [opc .prn, a]
  | .mul a b => [opc .mul, a, b]
  | .cmp a b => [opc .cmp, a, b]
  | .push a => [opc .push, a]
  | .pop a => [opc .pop, a]
  | .jmp a => [opc .jmp, a]
  | .jeq a => [opc .jeq, a]
  | .jne a => [opc .jne, a]
  | .hlt => [opc .hlt]

/-- The bytes of an instruction, with the default opcode map. -/
def encode (i : Instr) : List Byte := encodeWith opcodes i

/-- The three bytes, lowest address first, of an instruction numbered as opcode_table.json numbers it: its
first `nbits` bits are `w`'s, every bit above them is 0. -/
def tableBytes (nbits w : Nat) : List Byte :=
  let v := w % 2 ^ nbits
  [BitVec.ofNat 8 v, BitVec.ofNat 8 (v / 256), BitVec.ofNat 8 (v / 65536)]

/-- The instruction the decoder reads from an instruction whose bits are `w`. -/
def decodeTableWord (nbits w : Nat) : Option Instr :=
  match decode (tableBytes nbits w) with
  | .ok i => some i
  | .error _ => none

end Sys2Proof
end

