-- ==== Sys2Proof/Machine/Fetch.lean ====
section
/-! DEFINITION. Instruction fetch: the bytes at `pc`, and the faults of fetching and decoding them. -/

namespace Sys2Proof.Machine

/-- The byte `k` places after the opcode, if its address is at most 255; addresses are natural numbers and do not
wrap (`20_memory.md` R33). Bytes are read from memory at every step (`40_engine_cycle.md` R59). -/
def State.fetchByte (s : State) (k : Nat) : Option Byte :=
  if s.pc.toNat + k ≤ 255 then some (Memory.read s.mem (s.pc.toNat + k)) else none

/-- The fault a decoding error raises in the state that was fetched from (`60_exceptions.md` R91). -/
def fetchFault (s : State) : DecodeError → Fault
  | .noByte k => .addressRange (s.pc.toNat + k)
  | .illegalOpcode op => .illegalInstruction op s.pc

/-- Fetch, decode and operand fetch (`40_engine_cycle.md` R58, R59 to R61), for any opcode map (`00_scope.md` R7,
`30_encoding.md` R47: OPC is a parameter): the instruction at `pc`, or the fault raised before it. -/
def fetchDecodeWith (opc : OpcodeMap) (s : State) : Except Fault Instr :=
  match decodeFrom opc s.fetchByte with
  | .ok i => .ok i
  | .error e => .error (fetchFault s e)

/-- Fetch, decode and operand fetch with the default opcode map. -/
def fetchDecode (s : State) : Except Fault Instr := fetchDecodeWith opcodes s

end Sys2Proof.Machine
end

