-- ==== Sys2Proof/Machine/Launch.lean ====
section
/-! DEFINITION. The host's one operation on CORE: reset with a program image, before a run. -/

namespace Sys2Proof.Machine

/-- Reset and load (`10_state.md` R23; `70_reset_and_hazards.md` R107, R108, R113): the image from address 0
upward, 0x00 above it, every other field at its reset value, whatever an earlier run left. An image of more than
256 bytes is refused at the boundary (R113). -/
def launch (image : List Byte) (spReset : Byte := Config.spReset) : Host.Outcome State Fault Refusal :=
  if image.length ≤ Config.memSize then
    .next { State.resetWith spReset with mem := Memory.writeList [] 0 image }
  else .refused (.imageTooLong image.length)

end Sys2Proof.Machine
end

