-- ==== Sys2Proof/Machine/Step.lean ====
section
/-! DEFINITION. One step of the engine. -/

namespace Sys2Proof.Machine

/-- The step (`40_engine_cycle.md` R58), for any opcode map: while running, fetch and decode the instruction at `pc`,
then execute it; a fault of fetch or decode is taken. A stopped engine takes no step (log entry 7). The map is used
by decoding alone: the execute phase does not depend on it (D3: "semantics stated over mnemonics are unaffected"). -/
def stepWith (opc : OpcodeMap) (s : State) : Host.Outcome State Fault Refusal :=
  match s.run with
  | .running =>
    match fetchDecodeWith opc s with
    | .ok i => exec i s
    | .error f => faulting s f
  | .halted => noStep s
  | .faulted _ => noStep s

/-- The step with the default opcode map (`30_encoding.md` R47; log entry 1). -/
def step (s : State) : Host.Outcome State Fault Refusal := stepWith opcodes s

/-- The machine for every value of the parameters OPC and SP_RESET (`00_scope.md` R7, `30_encoding.md` R47). The image,
the third, is the argument of `launch`. `Sys2Proof.core` is this machine at the defaults. -/
def machineWith (opc : OpcodeMap := opcodes) (spReset : Byte := Config.spReset) : Host.Core where
  State := State
  Fault := Fault
  Refusal := Refusal
  step := stepWith opc
  reset := State.resetWith spReset

/-- `s` with an instruction, numbered as opcode_table.json numbers it, stored where the next step fetches, and the
engine running: it stands for the load from outside (log entry 11). Bytes that would lie above address 255 have no
cell. -/
def State.withFetchWord (s : State) (nbits w : Nat) : State :=
  { s with mem := Memory.writeList s.mem s.pc.toNat (tableBytes nbits w), run := .running }

end Sys2Proof.Machine
end

