-- ==== Sys2Proof/Safety.lean ====
section
/-! DEFINITION. What counts as a good state and a good run, and the terms the statements use. -/

namespace Sys2Proof.Machine

/-- One step of the engine: it exists only while `run = Running` (`40_engine_cycle.md` R58). -/
def EngineStep (s t : State) : Prop := s.run = .running ∧ step s = .next t

/-- A run has ended normally exactly when `run = Halted` (`40_engine_cycle.md` R67). -/
def State.EndedNormally (s : State) : Prop := s.run = .halted

/-- A fault that a step from a good state can have recorded, beside the state it is recorded in
(`60_exceptions.md` R91): AddressRange reports 256 (R33), an illegal instruction or operand stands at `pc` (R95),
and no program raises UnsupportedOperation (`42_alu.md` R75). -/
def recordedFaultOk (s : State) : Bool :=
  match s.run with
  | .running => true
  | .halted => true
  | .faulted (.illegalInstruction op p) =>
    decide (p = s.pc) && decide (Memory.read s.mem s.pc.toNat = op) && (decodeOpcode opcodes op).isNone
  | .faulted (.unsupportedOperation _) => false
  | .faulted (.illegalOperand op p v) =>
    decide (p = s.pc) && decide (Memory.read s.mem s.pc.toNat = op) && !isRegIndex v
  | .faulted (.addressRange addr) => decide (addr = 256)

/-- The invariant of the machine. -/
structure State.Inv (s : State) : Prop where
  /-- Memory is in its canonical form. -/
  mem_wf : s.mem.wf = true
  /-- `pc` is 0 to 256 (`10_state.md` R14). -/
  pc_le : s.pc.toNat ≤ 256
  /-- At most one of the three flags is set, bits 7 to 3 are 0 (`10_state.md` R16, R17). -/
  fl_one : s.fl = 0x00 ∨ s.fl = 0x01 ∨ s.fl = 0x02 ∨ s.fl = 0x04
  /-- A recorded fault is one a program can raise, with the information of the faulting instruction. -/
  fault_ok : recordedFaultOk s = true

/-- Every register but those listed holds in `t` what it held in `s`. -/
def SameRegsBut (written : List Reg) (s t : State) : Prop :=
  ∀ q : Reg, q ∉ written → t.reg q = s.reg q

/-- Every cell of memory reads in `t` as in `s`. -/
def SameMem (s t : State) : Prop := ∀ a : Byte, t.memRead a = s.memRead a

/-- The execute phases of a list of instructions, one after another (no fetch). -/
def execAll : List Instr → State → Host.Outcome State Fault Refusal
  | [], s => .next s
  | i :: is, s =>
    match exec i s with
    | .next t => execAll is t
    | .fault f => .fault f
    | .refused r => .refused r

end Sys2Proof.Machine
end

