-- ==== Sys2Proof/Certificates/Slice0/Obligations.lean ====
section
/-! DEFINITION. The statements about the model, for the provers. -/

open Sys2Proof Sys2Proof.Machine

/-! ### One statement per instruction: its bytes, its completion with result and frame, its faults. -/

/-- LDI (`41_load_print.md` R69): encoding, effect and frame, IllegalOperand, AddressRange, and the source's LDI/PRN
round trip. The byte 0x82 is the default of the parameter OPC (D3, log entry 1). The faults being raised: D5, D6, log
entry 15. The model's choice, and no rule of the spec: the clause on `exec` of an invalid register byte in every
state, which validates it (log entry 8, DEDUCED) and records whatever byte stands at `pc` (log entry 17, DESIGN
CHOICE); the step clause after it is the rule's. -/
def Obligations.LdiRule : Prop :=
  (∀ a b : Byte, encode (.ldi a b) = [0x82, a, b]) ∧
  (∀ (s : State) (r : Reg) (b : Byte), ∃ t, exec (.ldi (regByte r) b) s = .next t ∧
    t.reg r = b ∧ SameRegsBut [r] s t ∧ t.fl = s.fl ∧ SameMem s t ∧ t.out = s.out ∧ t.run = s.run ∧
    (s.pc.toNat ≤ 256 → t.pc.toNat = s.pc.toNat + 3)) ∧
  (∀ (s : State) (v b : Byte), 7 < v.toNat →
    exec (.ldi v b) s = .next { s with run := .faulted (.illegalOperand s.opcodeByte s.pc v) }) ∧
  (∀ (s : State) (v : Byte), s.run = .running → s.pc.toNat ≤ 253 →
    Memory.read s.mem s.pc.toNat = 0x82 → Memory.read s.mem (s.pc.toNat + 1) = v → 7 < v.toNat →
    step s = .next { s with run := .faulted (.illegalOperand 0x82 s.pc v) }) ∧
  (∀ s : State, s.run = .running → Memory.read s.mem s.pc.toNat = 0x82 →
    (s.pc.toNat = 254 ∨ s.pc.toNat = 255) →
    step s = .next { s with run := .faulted (.addressRange 256) }) ∧
  (∀ (s t : State) (r : Reg) (b : Byte), exec (.ldi (regByte r) b) s = .next t →
    ∃ u, exec (.prn (regByte r)) t = .next u ∧ u.out = s.out ++ [b])

/-- PRN (`41_load_print.md` R70): encoding, effect and frame, IllegalOperand, AddressRange. The byte 0x47: D3, log
entry 1. The faults being raised: D5, D6, log entry 15. The model's choice, and no rule of the spec: the clause on
`exec` of an invalid register byte in every state, which validates it (log entry 8, DEDUCED) and records whatever byte
stands at `pc` (log entry 17, DESIGN CHOICE); the step clause after it is the rule's. -/
def Obligations.PrnRule : Prop :=
  (∀ a : Byte, encode (.prn a) = [0x47, a]) ∧
  (∀ (s : State) (r : Reg), ∃ t, exec (.prn (regByte r)) s = .next t ∧
    t.out = s.out ++ [s.reg r] ∧ SameRegsBut [] s t ∧ t.fl = s.fl ∧ SameMem s t ∧ t.run = s.run ∧
    (s.pc.toNat ≤ 256 → t.pc.toNat = s.pc.toNat + 2)) ∧
  (∀ (s : State) (v : Byte), 7 < v.toNat →
    exec (.prn v) s = .next { s with run := .faulted (.illegalOperand s.opcodeByte s.pc v) }) ∧
  (∀ (s : State) (v : Byte), s.run = .running → s.pc.toNat ≤ 254 →
    Memory.read s.mem s.pc.toNat = 0x47 → Memory.read s.mem (s.pc.toNat + 1) = v → 7 < v.toNat →
    step s = .next { s with run := .faulted (.illegalOperand 0x47 s.pc v) }) ∧
  (∀ s : State, s.run = .running → Memory.read s.mem s.pc.toNat = 0x47 → s.pc.toNat = 255 →
    step s = .next { s with run := .faulted (.addressRange 256) })

/-- MUL (`42_alu.md` R73): the product modulo 256 in the destination, no flag; with `r = q` the register is squared.
The wrap-around is the spec's own decision D1 (log entry 4); the byte 0xA2: D3, log entry 1. The faults being raised:
D5, D6, log entry 15. The model's choice, and no rule of the spec: the two clauses on `exec` of an invalid register
byte in every state, which validates it (log entry 8, DEDUCED) and records whatever byte stands at `pc` (log entry 17,
DESIGN CHOICE); the two step clauses after them are the rule's. -/
def Obligations.MulRule : Prop :=
  (∀ a b : Byte, encode (.mul a b) = [0xA2, a, b]) ∧
  (∀ (s : State) (r q : Reg), ∃ t, exec (.mul (regByte r) (regByte q)) s = .next t ∧
    (t.reg r).toNat = ((s.reg r).toNat * (s.reg q).toNat) % 256 ∧ SameRegsBut [r] s t ∧
    t.fl = s.fl ∧ SameMem s t ∧ t.out = s.out ∧ t.run = s.run ∧
    (s.pc.toNat ≤ 256 → t.pc.toNat = s.pc.toNat + 3)) ∧
  (∀ (s : State) (v b : Byte), 7 < v.toNat →
    exec (.mul v b) s = .next { s with run := .faulted (.illegalOperand s.opcodeByte s.pc v) }) ∧
  (∀ (s : State) (r : Reg) (v : Byte), 7 < v.toNat →
    exec (.mul (regByte r) v) s = .next { s with run := .faulted (.illegalOperand s.opcodeByte s.pc v) }) ∧
  (∀ (s : State) (v : Byte), s.run = .running → s.pc.toNat ≤ 253 →
    Memory.read s.mem s.pc.toNat = 0xA2 → Memory.read s.mem (s.pc.toNat + 1) = v → 7 < v.toNat →
    step s = .next { s with run := .faulted (.illegalOperand 0xA2 s.pc v) }) ∧
  (∀ (s : State) (r : Reg) (v : Byte), s.run = .running → s.pc.toNat ≤ 253 →
    Memory.read s.mem s.pc.toNat = 0xA2 → Memory.read s.mem (s.pc.toNat + 1) = regByte r →
    Memory.read s.mem (s.pc.toNat + 2) = v → 7 < v.toNat →
    step s = .next { s with run := .faulted (.illegalOperand 0xA2 s.pc v) }) ∧
  (∀ s : State, s.run = .running → Memory.read s.mem s.pc.toNat = 0xA2 →
    (s.pc.toNat = 254 ∨ s.pc.toNat = 255) →
    step s = .next { s with run := .faulted (.addressRange 256) })

/-- CMP (`42_alu.md` R74): the whole `FL` byte becomes exactly one of 0x01, 0x02, 0x04 by unsigned order; no register
is written. The direction of Greater and Less is the spec's own decision D20 (log entry 13); the byte 0xA7: D3, log
entry 1. The faults being raised: D5, D6, log entry 15. The model's choice, and no rule of the spec: the two clauses
on `exec` of an invalid register byte in every state, which validates it (log entry 8, DEDUCED) and records whatever
byte stands at `pc` (log entry 17, DESIGN CHOICE); the two step clauses after them are the rule's. -/
def Obligations.CmpRule : Prop :=
  (∀ a b : Byte, encode (.cmp a b) = [0xA7, a, b]) ∧
  (∀ (s : State) (r q : Reg), ∃ t, exec (.cmp (regByte r) (regByte q)) s = .next t ∧
    ((s.reg r).toNat = (s.reg q).toNat → t.fl = 0x01) ∧
    ((s.reg r).toNat > (s.reg q).toNat → t.fl = 0x02) ∧
    ((s.reg r).toNat < (s.reg q).toNat → t.fl = 0x04) ∧
    SameRegsBut [] s t ∧ SameMem s t ∧ t.out = s.out ∧ t.run = s.run ∧
    (s.pc.toNat ≤ 256 → t.pc.toNat = s.pc.toNat + 3)) ∧
  (∀ (s : State) (v b : Byte), 7 < v.toNat →
    exec (.cmp v b) s = .next { s with run := .faulted (.illegalOperand s.opcodeByte s.pc v) }) ∧
  (∀ (s : State) (r : Reg) (v : Byte), 7 < v.toNat →
    exec (.cmp (regByte r) v) s = .next { s with run := .faulted (.illegalOperand s.opcodeByte s.pc v) }) ∧
  (∀ (s : State) (v : Byte), s.run = .running → s.pc.toNat ≤ 253 →
    Memory.read s.mem s.pc.toNat = 0xA7 → Memory.read s.mem (s.pc.toNat + 1) = v → 7 < v.toNat →
    step s = .next { s with run := .faulted (.illegalOperand 0xA7 s.pc v) }) ∧
  (∀ (s : State) (r : Reg) (v : Byte), s.run = .running → s.pc.toNat ≤ 253 →
    Memory.read s.mem s.pc.toNat = 0xA7 → Memory.read s.mem (s.pc.toNat + 1) = regByte r →
    Memory.read s.mem (s.pc.toNat + 2) = v → 7 < v.toNat →
    step s = .next { s with run := .faulted (.illegalOperand 0xA7 s.pc v) }) ∧
  (∀ s : State, s.run = .running → Memory.read s.mem s.pc.toNat = 0xA7 →
    (s.pc.toNat = 254 ∨ s.pc.toNat = 255) →
    step s = .next { s with run := .faulted (.addressRange 256) })

/-- PUSH (`43_stack.md` R80): the stack pointer is decremented modulo 256 first, the register as it then is goes to
the cell it then addresses, and every other cell stays. That PUSH R7 stores the decremented pointer is the order of
D13 (log entry 14); the byte 0x45: D3, log entry 1. Memory is in canonical form (`State.Inv`). The faults being
raised: D5, D6, log entry 15. The model's choice, and no rule of the spec: the clause on `exec` of an invalid register
byte in every state, which validates it (log entry 8, DEDUCED) and records whatever byte stands at `pc` (log entry 17,
DESIGN CHOICE); the step clause after it is the rule's. -/
def Obligations.PushRule : Prop :=
  (∀ a : Byte, encode (.push a) = [0x45, a]) ∧
  (∀ (s : State) (r : Reg), s.mem.wf = true → ∃ t, exec (.push (regByte r)) s = .next t ∧
    (pushAddress s).toNat = ((s.reg 7).toNat + 255) % 256 ∧
    t.reg 7 = pushAddress s ∧ SameRegsBut [7] s t ∧
    t.memRead (pushAddress s) = (if r = 7 then pushAddress s else s.reg r) ∧
    (∀ a : Byte, a ≠ pushAddress s → t.memRead a = s.memRead a) ∧
    t.fl = s.fl ∧ t.out = s.out ∧ t.run = s.run ∧
    (s.pc.toNat ≤ 256 → t.pc.toNat = s.pc.toNat + 2)) ∧
  (∀ (s : State) (v : Byte), 7 < v.toNat →
    exec (.push v) s = .next { s with run := .faulted (.illegalOperand s.opcodeByte s.pc v) }) ∧
  (∀ (s : State) (v : Byte), s.run = .running → s.pc.toNat ≤ 254 →
    Memory.read s.mem s.pc.toNat = 0x45 → Memory.read s.mem (s.pc.toNat + 1) = v → 7 < v.toNat →
    step s = .next { s with run := .faulted (.illegalOperand 0x45 s.pc v) }) ∧
  (∀ s : State, s.run = .running → Memory.read s.mem s.pc.toNat = 0x45 → s.pc.toNat = 255 →
    step s = .next { s with run := .faulted (.addressRange 256) })

/-- POP (`43_stack.md` R81): the cell at the stack pointer goes to the register, then the stack pointer as it then is
is incremented modulo 256; memory keeps every cell. That POP R7 leaves the loaded byte plus one is the order of D13
(log entry 14); the byte 0x46: D3, log entry 1. The faults being raised: D5, D6, log entry 15. The model's choice, and
no rule of the spec: the clause on `exec` of an invalid register byte in every state, which validates it (log entry 8,
DEDUCED) and records whatever byte stands at `pc` (log entry 17, DESIGN CHOICE); the step clause after it is the
rule's. -/
def Obligations.PopRule : Prop :=
  (∀ a : Byte, encode (.pop a) = [0x46, a]) ∧
  (∀ (s : State) (r : Reg), ∃ t, exec (.pop (regByte r)) s = .next t ∧
    (r ≠ 7 → t.reg r = s.memRead (s.reg 7) ∧ (t.reg 7).toNat = ((s.reg 7).toNat + 1) % 256) ∧
    (r = 7 → (t.reg 7).toNat = ((s.memRead (s.reg 7)).toNat + 1) % 256) ∧
    SameRegsBut [r, 7] s t ∧ SameMem s t ∧ t.fl = s.fl ∧ t.out = s.out ∧ t.run = s.run ∧
    (s.pc.toNat ≤ 256 → t.pc.toNat = s.pc.toNat + 2)) ∧
  (∀ (s : State) (v : Byte), 7 < v.toNat →
    exec (.pop v) s = .next { s with run := .faulted (.illegalOperand s.opcodeByte s.pc v) }) ∧
  (∀ (s : State) (v : Byte), s.run = .running → s.pc.toNat ≤ 254 →
    Memory.read s.mem s.pc.toNat = 0x46 → Memory.read s.mem (s.pc.toNat + 1) = v → 7 < v.toNat →
    step s = .next { s with run := .faulted (.illegalOperand 0x46 s.pc v) }) ∧
  (∀ s : State, s.run = .running → Memory.read s.mem s.pc.toNat = 0x46 → s.pc.toNat = 255 →
    step s = .next { s with run := .faulted (.addressRange 256) })

/-- JMP (`44_branch.md` R84): encoding, target and frame, IllegalOperand, AddressRange. The byte 0x54: D3, log entry
1. The faults being raised: D5, D6, log entry 15. The model's choice, and no rule of the spec: the clause on `exec` of
an invalid register byte in every state, which validates it (log entry 8, DEDUCED) and records whatever byte stands at
`pc` (log entry 17, DESIGN CHOICE); the step clause after it is the rule's. -/
def Obligations.JmpRule : Prop :=
  (∀ a : Byte, encode (.jmp a) = [0x54, a]) ∧
  (∀ (s : State) (r : Reg), ∃ t, exec (.jmp (regByte r)) s = .next t ∧
    t.pc.toNat = (s.reg r).toNat ∧ SameRegsBut [] s t ∧ t.fl = s.fl ∧ SameMem s t ∧ t.out = s.out ∧
    t.run = s.run) ∧
  (∀ (s : State) (v : Byte), 7 < v.toNat →
    exec (.jmp v) s = .next { s with run := .faulted (.illegalOperand s.opcodeByte s.pc v) }) ∧
  (∀ (s : State) (v : Byte), s.run = .running → s.pc.toNat ≤ 254 →
    Memory.read s.mem s.pc.toNat = 0x54 → Memory.read s.mem (s.pc.toNat + 1) = v → 7 < v.toNat →
    step s = .next { s with run := .faulted (.illegalOperand 0x54 s.pc v) }) ∧
  (∀ s : State, s.run = .running → Memory.read s.mem s.pc.toNat = 0x54 → s.pc.toNat = 255 →
    step s = .next { s with run := .faulted (.addressRange 256) })

/-- JEQ (`44_branch.md` R85): encoding, both branches with their frame, the faults, the agreement of the whole-byte
test and the bit test on the four values of `FL`, and the source's branch property. The byte 0x55: D3, log entry 1.
The faults being raised: D5, D6, log entry 15. The model's choice, and no rule of the spec: the clause on `exec` of an
invalid register byte in every state, which validates it (log entry 8, DEDUCED) and records whatever byte stands at
`pc` (log entry 17, DESIGN CHOICE); the step clause after it is the rule's. -/
def Obligations.JeqRule : Prop :=
  (∀ a : Byte, encode (.jeq a) = [0x55, a]) ∧
  (∀ (s : State) (r : Reg), ∃ t, exec (.jeq (regByte r)) s = .next t ∧
    (s.fl = 0x01 → t.pc.toNat = (s.reg r).toNat) ∧
    (s.fl ≠ 0x01 → s.pc.toNat ≤ 256 → t.pc.toNat = s.pc.toNat + 2) ∧
    SameRegsBut [] s t ∧ t.fl = s.fl ∧ SameMem s t ∧ t.out = s.out ∧ t.run = s.run) ∧
  (∀ (s : State) (v : Byte), 7 < v.toNat →
    exec (.jeq v) s = .next { s with run := .faulted (.illegalOperand s.opcodeByte s.pc v) }) ∧
  (∀ (s : State) (v : Byte), s.run = .running → s.pc.toNat ≤ 254 →
    Memory.read s.mem s.pc.toNat = 0x55 → Memory.read s.mem (s.pc.toNat + 1) = v → 7 < v.toNat →
    step s = .next { s with run := .faulted (.illegalOperand 0x55 s.pc v) }) ∧
  (∀ s : State, s.run = .running → Memory.read s.mem s.pc.toNat = 0x55 → s.pc.toNat = 255 →
    step s = .next { s with run := .faulted (.addressRange 256) }) ∧
  (∀ fl : Byte, (fl = 0x00 ∨ fl = 0x01 ∨ fl = 0x02 ∨ fl = 0x04) → (fl = 0x01 ↔ flagE fl = true)) ∧
  (∀ (s t : State) (p q r : Reg), exec (.cmp (regByte p) (regByte q)) s = .next t → t.fl = 0x01 →
    (∃ u, exec (.jeq (regByte r)) t = .next u ∧ u.pc.toNat = (s.reg r).toNat) ∧
    (∃ u, exec (.jne (regByte r)) t = .next u ∧
      (t.pc.toNat ≤ 256 → u.pc.toNat = t.pc.toNat + 2)))

/-- JNE (`44_branch.md` R86): also that in every state exactly one of JEQ and JNE is taken, here that the two
instructions' next `pc` are the target and the next instruction, one each. The byte 0x56: D3, log entry 1. The faults
being raised: D5, D6, log entry 15. The model's choice, and no rule of the spec: the clause on `exec` of an invalid
register byte in every state, which validates it (log entry 8, DEDUCED) and records whatever byte stands at `pc` (log
entry 17, DESIGN CHOICE); the step clause after it is the rule's. -/
def Obligations.JneRule : Prop :=
  (∀ a : Byte, encode (.jne a) = [0x56, a]) ∧
  (∀ (s : State) (r : Reg), ∃ t, exec (.jne (regByte r)) s = .next t ∧
    (s.fl ≠ 0x01 → t.pc.toNat = (s.reg r).toNat) ∧
    (s.fl = 0x01 → s.pc.toNat ≤ 256 → t.pc.toNat = s.pc.toNat + 2) ∧
    SameRegsBut [] s t ∧ t.fl = s.fl ∧ SameMem s t ∧ t.out = s.out ∧ t.run = s.run) ∧
  (∀ (s : State) (v : Byte), 7 < v.toNat →
    exec (.jne v) s = .next { s with run := .faulted (.illegalOperand s.opcodeByte s.pc v) }) ∧
  (∀ (s : State) (v : Byte), s.run = .running → s.pc.toNat ≤ 254 →
    Memory.read s.mem s.pc.toNat = 0x56 → Memory.read s.mem (s.pc.toNat + 1) = v → 7 < v.toNat →
    step s = .next { s with run := .faulted (.illegalOperand 0x56 s.pc v) }) ∧
  (∀ s : State, s.run = .running → Memory.read s.mem s.pc.toNat = 0x56 → s.pc.toNat = 255 →
    step s = .next { s with run := .faulted (.addressRange 256) }) ∧
  (∀ fl : Byte, (fl = 0x00 ∨ fl = 0x01 ∨ fl = 0x02 ∨ fl = 0x04) → (fl ≠ 0x01 ↔ flagE fl = false)) ∧
  (∀ (s : State) (r : Reg), s.pc.toNat ≤ 256 →
    ∃ t u, exec (.jeq (regByte r)) s = .next t ∧ exec (.jne (regByte r)) s = .next u ∧
      ((t.pc.toNat = (s.reg r).toNat ∧ u.pc.toNat = s.pc.toNat + 2) ∨
       (u.pc.toNat = (s.reg r).toNat ∧ t.pc.toNat = s.pc.toNat + 2)))

/-- HLT, the whole of `45_halt.md` R88: it completes at every address 0 to 255 and in every state, without reading
the bytes after it. (The byte 0x01: D3, log entry 1.) -/
def Obligations.HltRule : Prop :=
  encode .hlt = [0x01] ∧
  (∀ s : State, ∃ t, exec .hlt s = .next t ∧
    t.run = .halted ∧ SameRegsBut [] s t ∧ t.fl = s.fl ∧ SameMem s t ∧ t.out = s.out ∧
    (s.pc.toNat ≤ 256 → t.pc.toNat = s.pc.toNat + 1)) ∧
  (∀ s : State, s.run = .running → s.pc.toNat ≤ 255 → Memory.read s.mem s.pc.toNat = 0x01 →
    ∃ t, step s = .next t ∧ t.run = .halted ∧ t.pc.toNat = s.pc.toNat + 1 ∧ SameRegsBut [] s t ∧
      t.fl = s.fl ∧ SameMem s t ∧ t.out = s.out)

/-! ### The ALU taken alone. -/

/-- ALU operation ADD (`42_alu.md` R72): the sum modulo 256 (D1, log entry 4), no other effect; reached by name in the
ALU taken alone (log entry 10), never by an instruction. -/
def Obligations.AluAddOperation : Prop :=
  ∀ (s : State) (a b : Reg), ∃ t, aluExecuteNamed "ADD" a b s = .next t ∧
    (t.reg a).toNat = ((s.reg a).toNat + (s.reg b).toNat) % 256 ∧ SameRegsBut [a] s t ∧
    t.fl = s.fl ∧ t.pc = s.pc ∧ SameMem s t ∧ t.out = s.out ∧ t.run = s.run

/-- Any other operation name is the fault UnsupportedOperation and changes no register and no flag (`42_alu.md` R75;
the ALU taken alone is the model's choice, log entry 10). -/
def Obligations.AluUnsupportedOperation : Prop :=
  ∀ (s : State) (a b : Reg) (operation : String),
    operation ≠ "ADD" → operation ≠ "MUL" → operation ≠ "CMP" →
    aluExecuteNamed operation a b s = .next { s with run := .faulted (.unsupportedOperation operation) }

/-! ### Decoding and encoding. -/

/-- Whatever the opcode map, as long as its values are distinct: decoding the bytes of any instruction, whatever its
operand bytes and whatever follows them, gives that instruction (`30_encoding.md` R43 to R49). -/
def Obligations.DecodeOfEncode : Prop :=
  ∀ (opc : OpcodeMap), opc.Distinct → ∀ (i : Instr) (rest : List Byte),
    decodeWith opc (encodeWith opc i ++ rest) = .ok i

/-- Whatever the opcode map: the decoder reads an instruction only from that instruction's own bytes
(`30_encoding.md` R49, R54). -/
def Obligations.EncodeOfDecode : Prop :=
  ∀ (opc : OpcodeMap) (bytes : List Byte) (i : Instr),
    decodeWith opc bytes = .ok i → ∃ rest, bytes = encodeWith opc i ++ rest

/-- The default opcode map: distinct values, whose two high bits are the operand count (`30_encoding.md` R47, R48;
the values are general knowledge, D3, log entry 1). -/
def Obligations.DefaultOpcodes : Prop :=
  opcodes.Distinct ∧ ∀ m : Mnemonic, (opcodes m).toNat / 64 = m.arity

/-- A few words of the encoding table, one per family (`30_encoding.md` R45, R47; D3, log entry 1). -/
def Obligations.EncodedWords : Prop :=
  decode [0b10000010, 0b00000011, 0b11111111] = .ok (.ldi 3 255) ∧
  decode [0b10100010, 0b00000010, 0b00000101] = .ok (.mul 2 5) ∧
  decode [0b01000101, 0b00000111] = .ok (.push 7) ∧
  decode [0b01010101, 0b00000100] = .ok (.jeq 4) ∧
  decode [0b00000001] = .ok .hlt ∧
  decode [0b10100000, 0, 0] = .error (.illegalOpcode 0xA0)

/-! ### The step, its faults and its end. -/

/-- A running machine whose bytes at `pc` are those of an instruction `i` executes `i` and nothing else, and so does
one whose bytes decode to `i`: the step adds nothing around `exec` (`40_engine_cycle.md` R58, R63, R64). -/
def Obligations.StepRunsDecoded : Prop :=
  (∀ (s : State) (i : Instr), s.run = .running →
    s.pc.toNat + (encode i).length ≤ 256 →
    (∀ (k : Nat) (h : k < (encode i).length), Memory.read s.mem (s.pc.toNat + k) = (encode i)[k]) →
    step s = exec i s) ∧
  (∀ (s : State) (i : Instr), s.run = .running → decodeFrom opcodes s.fetchByte = .ok i →
    step s = exec i s)

/-- The machine for every opcode map with distinct values (`00_scope.md` R7, `30_encoding.md` R47): a running machine
whose bytes at `pc` are an instruction's under that map executes that instruction, with the same meaning whatever the
map; a byte that is no value of the map is IllegalInstruction; an instruction that does not fit below address 256, or
a fetch at 256, is AddressRange(256). The machine at the default map is `Sys2Proof.core`. The map being open is the
spec's decision D3 (log entry 1). -/
def Obligations.AnyOpcodeMap : Prop :=
  (∀ opc : OpcodeMap, opc.Distinct → ∀ s : State, s.run = .running →
    (∀ i : Instr, s.pc.toNat + (encodeWith opc i).length ≤ 256 →
      (∀ (k : Nat) (h : k < (encodeWith opc i).length),
        Memory.read s.mem (s.pc.toNat + k) = (encodeWith opc i)[k]) →
      (machineWith opc).step s = exec i s) ∧
    (∀ op : Byte, s.pc.toNat ≤ 255 → Memory.read s.mem s.pc.toNat = op → (∀ m, opc m ≠ op) →
      (machineWith opc).step s = .next { s with run := .faulted (.illegalInstruction op s.pc) }) ∧
    (∀ m : Mnemonic, s.pc.toNat ≤ 255 → Memory.read s.mem s.pc.toNat = opc m → 255 < s.pc.toNat + m.arity →
      (machineWith opc).step s = .next { s with run := .faulted (.addressRange 256) }) ∧
    (s.pc.toNat = 256 →
      (machineWith opc).step s = .next { s with run := .faulted (.addressRange 256) })) ∧
  machineWith = Sys2Proof.core

/-- Every step answers a next state: no state and no program makes this machine refuse or stop without one
(`40_engine_cycle.md` R65, R66, `60_exceptions.md` R90; faults are next states by log entry 6, a stopped engine stays
as it is by log entry 7). -/
def Obligations.StepAnswersNext : Prop :=
  ∀ s : State, ∃ t, step s = .next t

/-- The instruction-by-fault matrix in its order of priority (`60_exceptions.md` R92, R93; `40_engine_cycle.md` R58).
The faults and their order are the spec's own decisions D4, D5, D6, D11 (log entry 15). -/
def Obligations.FaultMatrix : Prop :=
  ∀ s : State, s.run = .running → s.pc.toNat ≤ 256 →
    (s.pc.toNat = 256 → step s = .next { s with run := .faulted (.addressRange 256) }) ∧
    (s.pc.toNat ≤ 255 → ∀ op : Byte, Memory.read s.mem s.pc.toNat = op →
      (decodeOpcode opcodes op = none →
        step s = .next { s with run := .faulted (.illegalInstruction op s.pc) }) ∧
      ∀ m : Mnemonic, decodeOpcode opcodes op = some m →
        (255 < s.pc.toNat + m.arity → step s = .next { s with run := .faulted (.addressRange 256) }) ∧
        (s.pc.toNat + m.arity ≤ 255 → ∀ a b : Byte,
          Memory.read s.mem (s.pc.toNat + 1) = a → Memory.read s.mem (s.pc.toNat + 2) = b →
          (1 ≤ m.arity → 7 < a.toNat →
            step s = .next { s with run := .faulted (.illegalOperand op s.pc a) }) ∧
          ((m = .mul ∨ m = .cmp) → a.toNat ≤ 7 → 7 < b.toNat →
            step s = .next { s with run := .faulted (.illegalOperand op s.pc b) }) ∧
          ((m.arity = 0 ∨ a.toNat ≤ 7) → ((m ≠ .mul ∧ m ≠ .cmp) ∨ b.toNat ≤ 7) →
            ∃ t, step s = .next t ∧ ∀ f, t.run ≠ .faulted f)))

/-- An opcode byte that is none of the ten raises IllegalInstruction(op, pc) with no other change, at every address
0 to 255, and 246 bytes are such (`30_encoding.md` R50; D4, log entry 15). -/
def Obligations.IllegalOpcodeFaults : Prop :=
  (∀ (s : State) (op : Byte), s.run = .running → s.pc.toNat ≤ 255 → Memory.read s.mem s.pc.toNat = op →
    op ∉ [0x82, 0x47, 0xA2, 0xA7, 0x45, 0x46, 0x54, 0x55, 0x56, 0x01] →
    step s = .next { s with run := .faulted (.illegalInstruction op s.pc) }) ∧
  ((List.range 256).filter fun n => (decodeOpcode opcodes (BitVec.ofNat 8 n)).isNone).length = 246

/-- A step that raises a fault changes `run` and nothing else, and the engine stops: it has no further step
(`60_exceptions.md` R94). -/
def Obligations.FaultsArePrecise : Prop :=
  ∀ (s t : State) (f : Fault), s.run = .running → step s = .next t → t.run = .faulted f →
    t = { s with run := .faulted f } ∧ ∀ u, ¬ EngineStep t u

/-- Halt determinism (`40_engine_cycle.md` R68): a fetched HLT stops the loop on that very step, whatever the
registers, flags and memory hold, and no step follows it. -/
def Obligations.HaltDeterminism : Prop :=
  ∀ s : State, s.run = .running → fetchDecode s = .ok .hlt →
    ∃ t, step s = .next t ∧ t.run = .halted ∧ ∀ u, ¬ EngineStep t u

/-- The numeric codes (`60_exceptions.md` R91; the numbers are the spec's own decision D11). -/
def Obligations.FaultCodes : Prop :=
  (∀ op pc, (Fault.illegalInstruction op pc).code = 1) ∧ (∀ o, (Fault.unsupportedOperation o).code = 2) ∧
  (∀ op pc v, (Fault.illegalOperand op pc v).code = 3) ∧ (∀ a, (Fault.addressRange a).code = 4)

/-- Halted and Faulted are terminal: the engine has no step, and however often it is asked for one the state stays as
it is (`45_halt.md` R89, `60_exceptions.md` R96, `40_engine_cycle.md` R58; that `step` answers the unchanged state is the
model's choice, log entry 7). -/
def Obligations.StoppedIsTerminal : Prop :=
  ∀ s : State, s.run ≠ .running →
    (∀ t, ¬ EngineStep s t) ∧ ∀ k : Nat, Host.Core.run Sys2Proof.core k s = .next s

/-- Only HLT sets Halted, only a fault sets Faulted, no step sets Running (`10_state.md` R20, `40_engine_cycle.md` R68;
the three values are the spec's own decision D11). -/
def Obligations.RunStateTransitions : Prop :=
  ∀ s t : State, step s = .next t →
    (s.run ≠ .running → t.run = s.run) ∧
    (s.run = .running → (t.run = .halted ↔ fetchDecode s = .ok .hlt)) ∧
    (s.run = .running → ∀ f, t.run = .faulted f →
      fetchDecode s = .error f ∨
      ∃ i v, fetchDecode s = .ok i ∧ i.wf = false ∧ 7 < v.toNat ∧
        f = .illegalOperand (opcodes i.mnemonic) s.pc v)

/-! ### What only some instructions write. -/

/-- `pc` after a step, the whole table of `10_state.md` R15, with natural-number sums of at most 256. -/
def Obligations.PcTable : Prop :=
  ∀ s t : State, s.run = .running → step s = .next t →
    (∀ i, fetchDecode s = .ok i → i.wf = true → i.mnemonic ∈ [Mnemonic.ldi, .mul, .cmp] →
      t.pc.toNat = s.pc.toNat + 3 ∧ t.pc.toNat ≤ 256) ∧
    (∀ i, fetchDecode s = .ok i → i.wf = true → i.mnemonic ∈ [Mnemonic.prn, .push, .pop] →
      t.pc.toNat = s.pc.toNat + 2 ∧ t.pc.toNat ≤ 256) ∧
    (∀ r : Reg, fetchDecode s = .ok (.jmp (regByte r)) → t.pc.toNat = (s.reg r).toNat) ∧
    (∀ r : Reg, fetchDecode s = .ok (.jeq (regByte r)) →
      (s.fl = 0x01 → t.pc.toNat = (s.reg r).toNat) ∧
      (s.fl ≠ 0x01 → t.pc.toNat = s.pc.toNat + 2 ∧ t.pc.toNat ≤ 256)) ∧
    (∀ r : Reg, fetchDecode s = .ok (.jne (regByte r)) →
      (s.fl ≠ 0x01 → t.pc.toNat = (s.reg r).toNat) ∧
      (s.fl = 0x01 → t.pc.toNat = s.pc.toNat + 2 ∧ t.pc.toNat ≤ 256)) ∧
    (fetchDecode s = .ok .hlt → t.pc.toNat = s.pc.toNat + 1 ∧ t.pc.toNat ≤ 256 ∧ t.run = .halted) ∧
    (∀ f, t.run = .faulted f → t.pc = s.pc)

/-- A step changes a register only as the table of `10_state.md` R10 says: LDI and MUL their destination, PUSH the
stack pointer, POP its destination and the stack pointer. -/
def Obligations.RegisterWriters : Prop :=
  ∀ (s t : State) (q : Reg), step s = .next t → t.reg q ≠ s.reg q →
    s.run = .running ∧
    ((∃ b, fetchDecode s = .ok (.ldi (regByte q) b)) ∨ (∃ b, fetchDecode s = .ok (.mul (regByte q) b)) ∨
     (q = 7 ∧ ∃ a, fetchDecode s = .ok (.push a)) ∨
     (∃ r : Reg, (q = r ∨ q = 7) ∧ fetchDecode s = .ok (.pop (regByte r))))

/-- Only CMP writes `FL`; it writes exactly one of 0x01, 0x02, 0x04, and otherwise the last result stands
(`10_state.md` R17, R18). -/
def Obligations.FlagWriters : Prop :=
  ∀ s t : State, step s = .next t →
    t.fl = s.fl ∨
    (s.run = .running ∧ (∃ a b, fetchDecode s = .ok (.cmp a b)) ∧
      (t.fl = 0x01 ∨ t.fl = 0x02 ∨ t.fl = 0x04))

/-- Only JEQ and JNE read `FL`: with any other value of `FL` every other instruction leaves the same registers, `pc`,
memory, run state and output (`10_state.md` R17). -/
def Obligations.FlagReaders : Prop :=
  ∀ (i : Instr) (s t : State) (v : Byte), i.mnemonic ≠ .jeq → i.mnemonic ≠ .jne → exec i s = .next t →
    ∃ u, exec i { s with fl := v } = .next u ∧
      u.x = t.x ∧ u.pc = t.pc ∧ u.mem = t.mem ∧ u.run = t.run ∧ u.out = t.out

/-- A step changes a cell of memory only if it is a PUSH, and only the cell one below the stack pointer
(`20_memory.md` R30, R31). -/
def Obligations.MemoryWriters : Prop :=
  ∀ (s t : State) (a : Byte), step s = .next t → t.memRead a ≠ s.memRead a →
    s.run = .running ∧ (∃ r : Reg, fetchDecode s = .ok (.push (regByte r))) ∧
      a.toNat = ((s.reg 7).toNat + 255) % 256

/-- The output channel (`10_state.md` R24): a PRN appends its register's value, nothing else appends or removes, and
nothing ever depends on what was emitted. -/
def Obligations.OutputChannel : Prop :=
  (∀ (s : State) (r : Reg), s.run = .running → fetchDecode s = .ok (.prn (regByte r)) →
    ∃ t, step s = .next t ∧ t.out = s.out ++ [s.reg r]) ∧
  (∀ s t : State, step s = .next t →
    (s.run ≠ .running ∨ ∀ r : Reg, fetchDecode s ≠ .ok (.prn (regByte r))) → t.out = s.out) ∧
  (∀ (s t : State) (o : List Byte), step s = .next t →
    ∃ u, step { s with out := o } = .next u ∧
      u.x = t.x ∧ u.pc = t.pc ∧ u.fl = t.fl ∧ u.mem = t.mem ∧ u.run = t.run)

/-! ### Memory, the stack and self-modifying code. -/

/-- Memories in canonical form that read the same are the same (the model's representation of `MEM`, log entry 3;
`20_memory.md` R28, R29). -/
def Obligations.MemoryExtensional : Prop :=
  ∀ m n : Memory, m.wf = true → n.wf = true →
    (∀ a : Nat, a < 256 → Memory.read m a = Memory.read n a) → m = n

/-- A byte a PUSH wrote is what the very next fetch of that cell gets (`20_memory.md` R41, which the spec derives;
PUSH R7 stores the decremented pointer, D13, log entry 14). -/
def Obligations.FetchSeesPush : Prop :=
  ∀ (s t : State) (r : Reg) (k : Nat), s.mem.wf = true → exec (.push (regByte r)) s = .next t →
    t.pc.toNat + k = (pushAddress s).toNat →
    t.fetchByte k = some (if r = 7 then pushAddress s else s.reg r)

/-- PUSH of one register followed by POP into another, neither being R7: the value arrives, the stack pointer is
back (`43_stack.md` R81, the source's property; the restriction to R0 to R6 is the spec's derivation). -/
def Obligations.PushPopRoundTrip : Prop :=
  ∀ (s : State) (r q : Reg), s.mem.wf = true → r ≠ 7 → q ≠ 7 →
    ∃ t, execAll [.push (regByte r), .pop (regByte q)] s = .next t ∧
      t.reg q = s.reg r ∧ t.reg 7 = s.reg 7 ∧ SameRegsBut [q] s t

/-- The stack discipline at any depth: push any registers among R0 to R6, at most 256 of them, and pop them in
reverse order; every register, the stack pointer too, holds what it held (`43_stack.md` R79, R81: "stack depth after N
pushes and N pops equals the starting depth"). -/
def Obligations.NestedPushesPop : Prop :=
  ∀ (s : State) (rs : List Reg), s.mem.wf = true → (∀ r ∈ rs, r ≠ 7) → rs.length ≤ 256 →
    ∃ t, execAll (rs.map (fun r => .push (regByte r)) ++ rs.reverse.map (fun r => .pop (regByte r))) s = .next t ∧
      ∀ q : Reg, t.reg q = s.reg q

/-- A JMP whose register holds the JMP's own address runs forever: after any number of steps the state is the same
and running (`44_branch.md` R84, `70_reset_and_hazards.md` R120). -/
def Obligations.JumpToItselfLoops : Prop :=
  ∀ (s : State) (r : Reg), s.run = .running → s.pc.toNat ≤ 254 →
    Memory.read s.mem s.pc.toNat = 0x54 → Memory.read s.mem (s.pc.toNat + 1) = regByte r →
    (s.reg r).toNat = s.pc.toNat →
    ∀ k : Nat, Host.Core.run Sys2Proof.core k s = .next s

/-! ### Reset, launch and the invariant. -/

/-- The state a launch leaves (`10_state.md` R23, `70_reset_and_hazards.md` R107, R113), and that the reset state is
the launch of the empty image. The values of `x[7]`, `pc`, `FL` and unloaded memory are the spec's own decisions D2,
D8, D7, D9 (log entries 2, 3). -/
def Obligations.LaunchState : Prop :=
  (∀ image : List Byte, image.length ≤ 256 → ∃ s, launch image = .next s ∧
    (∀ r : Reg, r ≠ 7 → s.reg r = 0x00) ∧ s.reg 7 = 0xF4 ∧ s.pc.toNat = 0 ∧ s.fl = 0x00 ∧
    (∀ a : Byte, s.memRead a = image.getD a.toNat 0x00) ∧ s.run = .running ∧ s.out = []) ∧
  launch [] = .next State.reset

/-- An image of more than 256 bytes is refused at the boundary (`70_reset_and_hazards.md` R113; D9, log entry 12). -/
def Obligations.LongImageRefused : Prop :=
  ∀ image : List Byte, 256 < image.length → launch image = .refused (.imageTooLong image.length)

/-- An empty image faults at once with IllegalInstruction(0x00, 0) and no output (`70_reset_and_hazards.md` R110, which
the spec derives). -/
def Obligations.EmptyImageFaults : Prop :=
  ∃ s, launch [] = .next s ∧
    step s = .next { s with run := .faulted (.illegalInstruction 0x00 0) } ∧ s.out = []

/-- The invariant holds after every launch, the reset state's empty one too. -/
def Obligations.LaunchEstablishesInv : Prop :=
  State.reset.Inv ∧ ∀ (image : List Byte) (s : State), launch image = .next s → s.Inv

/-- Every step keeps the invariant: memory canonical, `pc` at most 256 (`10_state.md` R14), `FL` one of its four values
(R17), a recorded fault one that a program can raise, with the faulting instruction's information
(`60_exceptions.md` R91, R95). -/
def Obligations.StepKeepsInv : Prop :=
  ∀ s t : State, s.Inv → step s = .next t → t.Inv
end

