-- ==== Sys2Proof/Laws/Decode.lean ====
section
/-! SUPPORT. What the decoder can answer. -/

namespace Sys2Proof

theorem Mnemonic.mem_all (m : Mnemonic) : m ∈ Mnemonic.all := by
  cases m <;> decide

/-- A row is found only under its own opcode byte, whatever the map. -/
theorem decodeOpcode_sound {opc : OpcodeMap} {op : Byte} {m : Mnemonic}
    (h : decodeOpcode opc op = some m) : opc m = op := by
  simpa using List.find?_some h

/-- A distinct map's opcode byte finds its row (`30_encoding.md` R49). -/
theorem decodeOpcode_complete {opc : OpcodeMap} (hd : opc.Distinct) (m : Mnemonic) :
    decodeOpcode opc (opc m) = some m := by
  cases h : decodeOpcode opc (opc m) with
  | none =>
    have := List.find?_eq_none.mp h m (Mnemonic.mem_all m)
    simp at this
  | some n => rw [hd n m (decodeOpcode_sound h)]

theorem Instr.mnemonic_withOperands (m : Mnemonic) (a b : Byte) : (m.withOperands a b).mnemonic = m := by
  cases m <;> rfl

/-- Everything the decoder can do, whatever the bytes. -/
theorem decodeFrom_cases (opc : OpcodeMap) (byteAt : Nat → Option Byte) :
    (byteAt 0 = none ∧ decodeFrom opc byteAt = .error (.noByte 0)) ∨
    ∃ op, byteAt 0 = some op ∧
      ((decodeOpcode opc op = none ∧ decodeFrom opc byteAt = .error (.illegalOpcode op)) ∨
       ∃ m, decodeOpcode opc op = some m ∧ decodeFrom opc byteAt = decodeOperands m byteAt) := by
  cases h0 : byteAt 0 with
  | none => exact .inl ⟨rfl, by simp [decodeFrom, h0]⟩
  | some op =>
    refine .inr ⟨op, rfl, ?_⟩
    cases hd : decodeOpcode opc op with
    | none => exact .inl ⟨rfl, by simp [decodeFrom, h0, hd]⟩
    | some m => exact .inr ⟨m, rfl, by simp [decodeFrom, h0, hd]⟩

/-- Everything operand fetch can do: an instruction of the row with the bytes the row has, or the first missing
byte. -/
theorem decodeOperands_cases (m : Mnemonic) (byteAt : Nat → Option Byte) :
    (m.arity = 0 ∧ decodeOperands m byteAt = .ok (m.withOperands 0 0)) ∨
    (1 ≤ m.arity ∧ byteAt 1 = none ∧ decodeOperands m byteAt = .error (.noByte 1)) ∨
    (∃ a, m.arity = 1 ∧ byteAt 1 = some a ∧ decodeOperands m byteAt = .ok (m.withOperands a 0)) ∨
    (∃ a, m.arity = 2 ∧ byteAt 1 = some a ∧ byteAt 2 = none ∧
      decodeOperands m byteAt = .error (.noByte 2)) ∨
    (∃ a b, m.arity = 2 ∧ byteAt 1 = some a ∧ byteAt 2 = some b ∧
      decodeOperands m byteAt = .ok (m.withOperands a b)) := by
  have h3 : m.arity = 0 ∨ m.arity = 1 ∨ m.arity = 2 := by cases m <;> decide
  rcases h3 with h | h | h
  · exact .inl ⟨h, by simp [decodeOperands, h]⟩
  · cases h1 : byteAt 1 with
    | none => exact .inr (.inl ⟨by omega, rfl, by simp [decodeOperands, h, h1]⟩)
    | some a => exact .inr (.inr (.inl ⟨a, h, rfl, by simp [decodeOperands, h, h1]⟩))
  · cases h1 : byteAt 1 with
    | none => exact .inr (.inl ⟨by omega, rfl, by simp [decodeOperands, h, h1]⟩)
    | some a =>
      cases h2 : byteAt 2 with
      | none => exact .inr (.inr (.inr (.inl ⟨a, h, rfl, rfl, by simp [decodeOperands, h, h1, h2]⟩)))
      | some b => exact .inr (.inr (.inr (.inr ⟨a, b, h, rfl, rfl, by simp [decodeOperands, h, h1, h2]⟩)))

end Sys2Proof
end

