-- ==== Sys2Proof/Laws/Operands.lean ====
section
/-! SUPPORT. What operand validation can do, and the arithmetic of the operand forms. -/

namespace Sys2Proof.Machine

theorem regIndex_regByte (r : Reg) : regIndex (regByte r) = some r := by
  revert r; decide

theorem regIndex_eq_some {v : Byte} {r : Reg} (h : regIndex v = some r) : v = regByte r := by
  revert v r; decide

theorem regIndex_eq_none {v : Byte} : regIndex v = none ↔ 7 < v.toNat := by
  unfold regIndex
  split
  · next h => simp; omega
  · next h => simp; omega

theorem isRegIndex_iff {v : Byte} : isRegIndex v = true ↔ ∃ r : Reg, v = regByte r := by
  constructor
  · intro h
    have hv : v.toNat < 8 := by simpa [isRegIndex, Nat.lt_succ_iff] using h
    exact ⟨⟨v.toNat, hv⟩, regIndex_eq_some (by simp [regIndex, hv])⟩
  · rintro ⟨r, rfl⟩
    revert r; decide

theorem regByte_toNat_le (r : Reg) : (regByte r).toNat ≤ 7 := by
  revert r; decide

theorem regByte_injective {r q : Reg} (h : regByte r = regByte q) : r = q := by
  have := regIndex_regByte r
  rw [h, regIndex_regByte q] at this
  exact (Option.some.inj this).symm

/-- A valid register operand: validation goes on with the register. -/
theorem withReg_regByte (r : Reg) (s : State)
    (k : Reg → Host.Outcome State Fault Refusal) : withReg (regByte r) s k = k r := by
  simp [withReg, regIndex_regByte]

/-- An invalid register operand raises IllegalOperand and nothing else (`30_encoding.md` R52). -/
theorem withReg_invalid {v : Byte} (s : State)
    (k : Reg → Host.Outcome State Fault Refusal) (h : 7 < v.toNat) :
    withReg v s k = .next (s.raise (.illegalOperand s.opcodeByte s.pc v)) := by
  simp [withReg, regIndex_eq_none.mpr h, faulting]

/-- Everything validation of one operand can do. -/
theorem withReg_cases (v : Byte) (s : State) (k : Reg → Host.Outcome State Fault Refusal) :
    (∃ r : Reg, v = regByte r ∧ withReg v s k = k r) ∨
      (7 < v.toNat ∧ withReg v s k = .next (s.raise (.illegalOperand s.opcodeByte s.pc v))) := by
  cases h : regIndex v with
  | some r => exact .inl ⟨r, regIndex_eq_some h, by simp [withReg, h]⟩
  | none =>
    have hv := regIndex_eq_none.mp h
    exact .inr ⟨hv, withReg_invalid s k hv⟩

/-- Everything validation of two operands can do: `a` is checked before `b`. -/
theorem withRegs_cases (a b : Byte) (s : State)
    (k : Reg → Reg → Host.Outcome State Fault Refusal) :
    (∃ ra rb : Reg, a = regByte ra ∧ b = regByte rb ∧ withRegs a b s k = k ra rb) ∨
      (7 < a.toNat ∧ withRegs a b s k = .next (s.raise (.illegalOperand s.opcodeByte s.pc a))) ∨
      (a.toNat ≤ 7 ∧ 7 < b.toNat ∧ withRegs a b s k = .next (s.raise (.illegalOperand s.opcodeByte s.pc b))) := by
  unfold withRegs
  rcases withReg_cases a s (fun ra => withReg b s fun rb => k ra rb) with ⟨ra, ha, h⟩ | ⟨ha, h⟩
  · rw [h]
    rcases withReg_cases b s (fun rb => k ra rb) with ⟨rb, hb, h'⟩ | ⟨hb, h'⟩
    · exact .inl ⟨ra, rb, ha, hb, h'⟩
    · exact .inr (.inr ⟨ha ▸ regByte_toNat_le ra, hb, h'⟩)
  · exact .inr (.inl ⟨ha, h⟩)

theorem trunc8_toNat_of_nat (n : Nat) : (trunc8 (n : Int)).toNat = n % 256 := by
  simp [trunc8]

/-- The address PUSH stores to, as a number: one below the stack pointer, 255 below 0 (`43_stack.md` R80). -/
theorem pushAddress_toNat (s : State) : (pushAddress s).toNat = ((s.reg Config.sp).toNat + 255) % 256 := by
  have h := (s.reg Config.sp).isLt
  simp only [pushAddress, trunc8, BitVec.toNat_ofInt]
  omega

theorem pushAddress_eq (s : State) : pushAddress s = s.reg Config.sp - 1 := by
  apply BitVec.eq_of_toNat_eq
  rw [pushAddress_toNat, BitVec.toNat_sub]
  have h := (s.reg Config.sp).isLt
  simp
  omega

theorem popIncrement_toNat (s : State) : (popIncrement s).toNat = ((s.reg Config.sp).toNat + 1) % 256 := by
  simpa [popIncrement] using trunc8_toNat_of_nat ((s.reg Config.sp).toNat + 1)

theorem popIncrement_eq (s : State) : popIncrement s = s.reg Config.sp + 1 := by
  apply BitVec.eq_of_toNat_eq
  rw [popIncrement_toNat, BitVec.toNat_add]
  rfl

theorem zext9_toNat (v : Byte) : (zext9 v).toNat = v.toNat := by
  have h := v.isLt
  simp only [zext9, BitVec.toNat_ofNat]
  omega

theorem jumpTarget_toNat (s : State) (r : Reg) : (jumpTarget s r).toNat = (s.reg r).toNat :=
  zext9_toNat _

/-- Sequential advance is the natural-number sum from every `pc` a run reaches (`40_engine_cycle.md` R64). -/
theorem State.advance_pc_toNat (s : State) (n : Nat) (h : s.pc.toNat + n < 512) :
    (s.advance n).pc.toNat = s.pc.toNat + n := by
  simp only [State.advance_pc, BitVec.toNat_ofNat]
  omega

/-- CMP writes exactly one of the three flag values (`42_alu.md` R74). -/
theorem compareFlags_cases (x y : Byte) :
    (x.toNat = y.toNat ∧ compareFlags x y = flEqual) ∨
      (y.toNat < x.toNat ∧ compareFlags x y = flGreater) ∨
      (x.toNat < y.toNat ∧ compareFlags x y = flLess) := by
  unfold compareFlags
  split
  · next h => exact .inl ⟨h, rfl⟩
  · next h =>
    split
    · next h' => exact .inr (.inl ⟨h', rfl⟩)
    · next h' => exact .inr (.inr ⟨by omega, rfl⟩)

theorem equalHolds_iff (s : State) : equalHolds s = true ↔ s.fl = 0x01 := by
  simp [equalHolds, flEqual]

end Sys2Proof.Machine
end

