-- ==== Sys2Proof/Laws/Exec.lean ====
section
/-! SUPPORT. What each meaning answers, once for valid operands; the invalid ones are `withReg_invalid`. -/

namespace Sys2Proof.Machine

theorem execLdi_regByte (r : Reg) (b : Byte) (s : State) :
    execLdi (regByte r) b s = .next ((s.setReg r b).advance 3) :=
  withReg_regByte _ _ _

theorem execPrn_regByte (r : Reg) (s : State) :
    execPrn (regByte r) s = .next ((s.emit (s.reg r)).advance 2) :=
  withReg_regByte _ _ _

theorem execMul_regByte (r q : Reg) (s : State) :
    execMul (regByte r) (regByte q) s = .next ((aluExecute .mul r q s).advance 3) := by
  simp [execMul, withRegs, withReg_regByte]

theorem execCmp_regByte (r q : Reg) (s : State) :
    execCmp (regByte r) (regByte q) s = .next ((aluExecute .cmp r q s).advance 3) := by
  simp [execCmp, withRegs, withReg_regByte]

theorem execPush_regByte (r : Reg) (s : State) :
    execPush (regByte r) s = .next ((pushReg r s).advance 2) :=
  withReg_regByte _ _ _

theorem execPop_regByte (r : Reg) (s : State) :
    execPop (regByte r) s = .next ((popReg r s).advance 2) :=
  withReg_regByte _ _ _

theorem execJmp_regByte (r : Reg) (s : State) :
    execJmp (regByte r) s = .next (s.jump (jumpTarget s r)) :=
  withReg_regByte _ _ _

theorem execJeq_regByte (r : Reg) (s : State) :
    execJeq (regByte r) s = .next (if equalHolds s then s.jump (jumpTarget s r) else s.advance 2) :=
  withReg_regByte _ _ _

theorem execJne_regByte (r : Reg) (s : State) :
    execJne (regByte r) s = .next (if equalHolds s then s.advance 2 else s.jump (jumpTarget s r)) :=
  withReg_regByte _ _ _

/-- An ill-formed instruction raises IllegalOperand in every state, for one and the same operand byte
(`30_encoding.md` R52). -/
theorem exec_of_not_wf {i : Instr} (h : i.wf = false) :
    ∃ v : Byte, 7 < v.toNat ∧
      ∀ s, exec i s = .next (s.raise (.illegalOperand s.opcodeByte s.pc v)) := by
  have hv : ∀ {v : Byte}, isRegIndex v = false → 7 < v.toNat := by
    intro v hv
    simpa [isRegIndex] using hv
  have two : ∀ {a b : Byte} {k : State → Reg → Reg → Host.Outcome State Fault Refusal},
      (isRegIndex a && isRegIndex b) = false → ∃ v : Byte, 7 < v.toNat ∧
        ∀ s, withRegs a b s (k s) = .next (s.raise (.illegalOperand s.opcodeByte s.pc v)) := by
    intro a b k hw
    cases ha : isRegIndex a with
    | false => exact ⟨a, hv ha, fun s => withReg_invalid _ _ (hv ha)⟩
    | true =>
      have hb : isRegIndex b = false := by simpa [ha] using hw
      obtain ⟨r, rfl⟩ := isRegIndex_iff.mp ha
      refine ⟨b, hv hb, fun s => ?_⟩
      rw [withRegs, withReg_regByte]
      exact withReg_invalid _ _ (hv hb)
  cases i with
  | ldi a b => exact ⟨a, hv h, fun s => withReg_invalid _ _ (hv h)⟩
  | prn a => exact ⟨a, hv h, fun s => withReg_invalid _ _ (hv h)⟩
  | mul a b => exact two h
  | cmp a b => exact two h
  | push a => exact ⟨a, hv h, fun s => withReg_invalid _ _ (hv h)⟩
  | pop a => exact ⟨a, hv h, fun s => withReg_invalid _ _ (hv h)⟩
  | jmp a => exact ⟨a, hv h, fun s => withReg_invalid _ _ (hv h)⟩
  | jeq a => exact ⟨a, hv h, fun s => withReg_invalid _ _ (hv h)⟩
  | jne a => exact ⟨a, hv h, fun s => withReg_invalid _ _ (hv h)⟩
  | hlt => cases h

/-- The well-formed instructions, by their registers. -/
theorem wf_cases {i : Instr} (h : i.wf = true) :
    (∃ r b, i = .ldi (regByte r) b) ∨ (∃ r, i = .prn (regByte r)) ∨
    (∃ r q, i = .mul (regByte r) (regByte q)) ∨ (∃ r q, i = .cmp (regByte r) (regByte q)) ∨
    (∃ r, i = .push (regByte r)) ∨ (∃ r, i = .pop (regByte r)) ∨ (∃ r, i = .jmp (regByte r)) ∨
    (∃ r, i = .jeq (regByte r)) ∨ (∃ r, i = .jne (regByte r)) ∨ i = .hlt := by
  cases i <;> simp_all [Instr.wf, isRegIndex_iff]

/-- PUSH writes no register but the stack pointer. -/
theorem pushReg_reg (r q : Reg) (s : State) :
    (pushReg r s).reg q = if q = Config.sp then pushAddress s else s.reg q :=
  State.setReg_reg s Config.sp q (pushAddress s)

/-- The memory PUSH leaves: one cell written, with the register as the decrement left it. -/
theorem pushReg_mem (r : Reg) (s : State) :
    (pushReg r s).mem =
      Memory.write s.mem (pushAddress s).toNat (if r = Config.sp then pushAddress s else s.reg r) := by
  simp only [pushReg, State.memWrite_mem, State.setReg_mem, State.setReg_reg_self]
  rw [State.setReg_reg]

/-- The registers POP leaves: the stack pointer is incremented after the load was written. -/
theorem popReg_reg (r q : Reg) (s : State) :
    (popReg r s).reg q =
      if q = Config.sp then (if r = Config.sp then s.memRead (s.reg Config.sp) else s.reg Config.sp) + 1
      else if q = r then s.memRead (s.reg Config.sp) else s.reg q := by
  simp only [popReg, popIncrement_eq, popAddress]
  rw [State.setReg_reg, State.setReg_reg, State.setReg_reg]
  simp only [eq_comm (a := Config.sp) (b := r)]

theorem popReg_mem (r : Reg) (s : State) : (popReg r s).mem = s.mem := rfl

end Sys2Proof.Machine
end

