-- ==== Sys2Proof/Laws/Memory.lean ====
section
/-! SUPPORT. The laws of memory: read after write, and that every memory operation keeps the canonical form. -/

namespace Sys2Proof.Machine

/-- A canonical memory lists nothing below its lower bound. -/
theorem Memory.read_of_lt {m : Memory} {lo a : Nat} (h : Memory.wfFrom lo m = true) (ha : a < lo) :
    Memory.read m a = Config.unloadedByte := by
  induction m generalizing lo with
  | nil => rfl
  | cons c m ih =>
    obtain ⟨k, v⟩ := c
    simp only [Memory.wfFrom, Bool.and_eq_true, decide_eq_true_eq] at h
    have hne : a ≠ k := by omega
    simp [Memory.read, hne, ih h.2 (by omega)]

/-- A canonical memory stays canonical for any lower bound that is not higher. -/
theorem Memory.wfFrom_mono {m : Memory} {lo lo' : Nat} (h : Memory.wfFrom lo m = true) (hl : lo' ≤ lo) :
    Memory.wfFrom lo' m = true := by
  cases m with
  | nil => rfl
  | cons c m =>
    obtain ⟨k, v⟩ := c
    simp only [Memory.wfFrom, Bool.and_eq_true, decide_eq_true_eq] at h ⊢
    exact ⟨⟨⟨by omega, h.1.1.2⟩, h.1.2⟩, h.2⟩

theorem Memory.cons_wf {m : Memory} {lo a : Nat} {v : Byte} (h : Memory.wfFrom (a + 1) m = true)
    (hlo : lo ≤ a) (ha : a < Config.memSize) : Memory.wfFrom lo (Memory.cons a v m) = true := by
  unfold Memory.cons
  split
  · exact Memory.wfFrom_mono h (by omega)
  · next hv =>
    simp only [Memory.wfFrom, Bool.and_eq_true, decide_eq_true_eq]
    exact ⟨⟨⟨hlo, ha⟩, hv⟩, h⟩

theorem Memory.read_cons_self {m : Memory} {a : Nat} {v : Byte} (h : Memory.wfFrom (a + 1) m = true) :
    Memory.read (Memory.cons a v m) a = v := by
  unfold Memory.cons
  split
  · next hv => rw [hv]; exact Memory.read_of_lt h (by omega)
  · simp [Memory.read]

theorem Memory.read_cons_of_ne {m : Memory} {a b : Nat} {v : Byte} (h : b ≠ a) :
    Memory.read (Memory.cons a v m) b = Memory.read m b := by
  unfold Memory.cons
  split
  · rfl
  · simp [Memory.read, h]

/-- A write keeps the canonical form, from any lower bound. -/
theorem Memory.write_wfFrom {m : Memory} {lo a : Nat} {v : Byte} (h : Memory.wfFrom lo m = true)
    (hlo : lo ≤ a) (ha : a < Config.memSize) : Memory.wfFrom lo (Memory.write m a v) = true := by
  induction m generalizing lo with
  | nil => exact Memory.cons_wf rfl hlo ha
  | cons c m ih =>
    obtain ⟨k, w⟩ := c
    have hc := h
    simp only [Memory.wfFrom, Bool.and_eq_true, decide_eq_true_eq] at h
    unfold Memory.write
    split
    · next hlt =>
      refine Memory.cons_wf ?_ hlo ha
      simp only [Memory.wfFrom, Bool.and_eq_true, decide_eq_true_eq]
      exact ⟨⟨⟨by omega, h.1.1.2⟩, h.1.2⟩, h.2⟩
    · split
      · next he => exact Memory.cons_wf (he ▸ h.2) hlo ha
      · simp only [Memory.wfFrom, Bool.and_eq_true, decide_eq_true_eq]
        exact ⟨h.1, ih h.2 (by omega)⟩

/-- A write to a cell of memory keeps the canonical form. -/
theorem Memory.write_wf {m : Memory} {a : Nat} {v : Byte} (h : m.wf = true) (ha : a < Config.memSize) :
    Memory.wf (Memory.write m a v) = true :=
  Memory.write_wfFrom h (Nat.zero_le a) ha

theorem Memory.read_write_self_from {m : Memory} {lo a : Nat} {v : Byte} (h : Memory.wfFrom lo m = true) :
    Memory.read (Memory.write m a v) a = v := by
  induction m generalizing lo with
  | nil => exact Memory.read_cons_self rfl
  | cons c m ih =>
    obtain ⟨k, w⟩ := c
    simp only [Memory.wfFrom, Bool.and_eq_true, decide_eq_true_eq] at h
    unfold Memory.write
    split
    · refine Memory.read_cons_self ?_
      simp only [Memory.wfFrom, Bool.and_eq_true, decide_eq_true_eq]
      exact ⟨⟨⟨by omega, h.1.1.2⟩, h.1.2⟩, h.2⟩
    · split
      · next he => exact Memory.read_cons_self (he ▸ h.2)
      · next hne => simp [Memory.read, hne, ih h.2]

/-- Read after write, same address (`20_memory.md` R29, R30). -/
theorem Memory.read_write_self {m : Memory} {a : Nat} {v : Byte} (h : m.wf = true) :
    Memory.read (Memory.write m a v) a = v :=
  Memory.read_write_self_from h

/-- Read after write, another address (`20_memory.md` R30: "and nothing else"). -/
theorem Memory.read_write_of_ne {m : Memory} {a b : Nat} {v : Byte} (h : b ≠ a) :
    Memory.read (Memory.write m a v) b = Memory.read m b := by
  induction m with
  | nil => exact Memory.read_cons_of_ne h
  | cons c m ih =>
    obtain ⟨k, w⟩ := c
    unfold Memory.write
    split
    · exact Memory.read_cons_of_ne h
    · split
      · next he =>
        have : b ≠ k := he ▸ h
        rw [Memory.read_cons_of_ne h]
        simp [Memory.read, this]
      · simp [Memory.read, ih]

/-- Storing a list of bytes keeps the canonical form. -/
theorem Memory.writeList_wf {m : Memory} {a : Nat} {bs : List Byte} (h : m.wf = true) :
    Memory.wf (Memory.writeList m a bs) = true := by
  induction bs generalizing m a with
  | nil => exact h
  | cons v vs ih =>
    refine ih ?_
    split
    · next ha => exact Memory.write_wf h ha
    · exact h

/-- Storing a list of bytes leaves lower addresses alone. -/
theorem Memory.read_writeList_of_lt {m : Memory} {a b : Nat} {bs : List Byte} (h : b < a) :
    Memory.read (Memory.writeList m a bs) b = Memory.read m b := by
  induction bs generalizing m a with
  | nil => rfl
  | cons v vs ih =>
    refine (ih (by omega)).trans ?_
    split
    · exact Memory.read_write_of_ne (by omega)
    · rfl

/-- Storing a list of bytes: the cell at each place holds the byte of that place, every other cell as before. -/
theorem Memory.read_writeList {m : Memory} {a k : Nat} {bs : List Byte} (h : m.wf = true)
    (hk : a + k < Config.memSize) :
    Memory.read (Memory.writeList m a bs) (a + k) = bs.getD k (Memory.read m (a + k)) := by
  induction bs generalizing m a k with
  | nil => rfl
  | cons v vs ih =>
    have ha : a < Config.memSize := by omega
    rw [Memory.writeList, if_pos ha]
    cases k with
    | zero =>
      exact (Memory.read_writeList_of_lt (Nat.lt_succ_self a)).trans (Memory.read_write_self h)
    | succ k =>
      have e : a + (k + 1) = a + 1 + k := by omega
      rw [e, ih (Memory.write_wf h ha) (by omega), Memory.read_write_of_ne (by omega)]
      rfl

theorem State.memWrite_wf (s : State) (a v : Byte) (h : s.mem.wf = true) : (s.memWrite a v).mem.wf = true :=
  Memory.write_wf h a.isLt

theorem State.memWrite_memRead_self (s : State) (a v : Byte) (h : s.mem.wf = true) :
    (s.memWrite a v).memRead a = v :=
  Memory.read_write_self h

theorem State.memWrite_memRead_of_ne (s : State) (a c v : Byte) (h : c ≠ a) :
    (s.memWrite a v).memRead c = s.memRead c :=
  Memory.read_write_of_ne fun e => h (BitVec.eq_of_toNat_eq e)

theorem State.withFetchWord_wf (s : State) (nbits w : Nat) (h : s.mem.wf = true) :
    (s.withFetchWord nbits w).mem.wf = true :=
  Memory.writeList_wf h

theorem State.reset_mem_wf : State.reset.mem.wf = true := rfl

end Sys2Proof.Machine
end

