-- ==== Sys2Proof/Laws/PerInstr.lean ====
section
/-! SUPPORT. Facts about every instruction as syntax, one lemma per constructor. -/

namespace Sys2Proof.Laws

/-- The encoding of an instruction: its opcode byte first, as many bytes as its length, at most three
(`30_encoding.md` R43, R44). -/
def EncodedBytes.Statement (i : Instr) : Prop :=
  (encode i).length = i.length ∧ (encode i)[0]? = some (opcodes i.mnemonic) ∧ i.length ≤ 3

theorem instr_length_le (i : Instr) : i.length ≤ 3 := by
  cases i <;> simp [Instr.length, Instr.mnemonic, Mnemonic.arity, Mnemonic.format, Format.arity]

theorem EncodedBytes.ldi (a b : Byte) : EncodedBytes.Statement (.ldi a b) := ⟨rfl, rfl, instr_length_le _⟩
theorem EncodedBytes.prn (a : Byte) : EncodedBytes.Statement (.prn a) := ⟨rfl, rfl, instr_length_le _⟩
theorem EncodedBytes.mul (a b : Byte) : EncodedBytes.Statement (.mul a b) := ⟨rfl, rfl, instr_length_le _⟩
theorem EncodedBytes.cmp (a b : Byte) : EncodedBytes.Statement (.cmp a b) := ⟨rfl, rfl, instr_length_le _⟩
theorem EncodedBytes.push (a : Byte) : EncodedBytes.Statement (.push a) := ⟨rfl, rfl, instr_length_le _⟩
theorem EncodedBytes.pop (a : Byte) : EncodedBytes.Statement (.pop a) := ⟨rfl, rfl, instr_length_le _⟩
theorem EncodedBytes.jmp (a : Byte) : EncodedBytes.Statement (.jmp a) := ⟨rfl, rfl, instr_length_le _⟩
theorem EncodedBytes.jeq (a : Byte) : EncodedBytes.Statement (.jeq a) := ⟨rfl, rfl, instr_length_le _⟩
theorem EncodedBytes.jne (a : Byte) : EncodedBytes.Statement (.jne a) := ⟨rfl, rfl, instr_length_le _⟩
theorem EncodedBytes.hlt : EncodedBytes.Statement .hlt := ⟨rfl, rfl, instr_length_le _⟩

end Sys2Proof.Laws
end

