-- ==== Sys2Proof/Laws/Step.lean ====
section
/-! SUPPORT. What one step can do. -/

namespace Sys2Proof.Machine

/-- The host's machine is the parameterised one at the defaults. -/
theorem core_eq_machineWith : Sys2Proof.core = machineWith := rfl

/-- Everything a step can do, whatever the opcode map: stay where it is when the engine is stopped, take a fault of
fetch or decode, or execute the fetched instruction. -/
theorem stepWith_cases (opc : OpcodeMap) (s : State) :
    (s.run ≠ .running ∧ stepWith opc s = .next s) ∨
    (s.run = .running ∧ ∃ f, fetchDecodeWith opc s = .error f ∧ stepWith opc s = .next (s.raise f)) ∨
    (s.run = .running ∧ ∃ i, fetchDecodeWith opc s = .ok i ∧ stepWith opc s = exec i s) := by
  cases hr : s.run with
  | halted => exact .inl ⟨by simp, by simp [stepWith, hr, noStep]⟩
  | faulted f => exact .inl ⟨by simp, by simp [stepWith, hr, noStep]⟩
  | running =>
    cases hf : fetchDecodeWith opc s with
    | error f => exact .inr (.inl ⟨rfl, f, rfl, by simp [stepWith, hr, hf, faulting]⟩)
    | ok i => exact .inr (.inr ⟨rfl, i, rfl, by simp [stepWith, hr, hf]⟩)

/-- Everything a step can do, with the default opcode map. -/
theorem step_cases (s : State) :
    (s.run ≠ .running ∧ step s = .next s) ∨
    (s.run = .running ∧ ∃ f, fetchDecode s = .error f ∧ step s = .next (s.raise f)) ∨
    (s.run = .running ∧ ∃ i, fetchDecode s = .ok i ∧ step s = exec i s) :=
  stepWith_cases opcodes s

/-- A running machine that fetched an instruction executes it. -/
theorem stepWith_of_ok {opc : OpcodeMap} {s : State} {i : Instr} (hr : s.run = .running)
    (h : fetchDecodeWith opc s = .ok i) : stepWith opc s = exec i s := by
  simp [stepWith, hr, h]

/-- A running machine whose fetch or decode fails takes that fault. -/
theorem stepWith_of_error {opc : OpcodeMap} {s : State} {f : Fault} (hr : s.run = .running)
    (h : fetchDecodeWith opc s = .error f) : stepWith opc s = .next (s.raise f) := by
  simp [stepWith, hr, h, faulting]

/-- A run that begins with a step that answers `t` goes on from `t`. -/
theorem core_run_of_next {s t : State} (k : Nat) (h : step s = .next t) :
    Host.Core.run Sys2Proof.core (k + 1) s = Host.Core.run Sys2Proof.core k t := by
  have h' : Sys2Proof.core.step s = .next t := h
  simp only [Host.Core.run, h']

theorem State.fetchByte_eq_some {s : State} {k : Nat} {v : Byte} (h : s.fetchByte k = some v) :
    s.pc.toNat + k ≤ 255 ∧ Memory.read s.mem (s.pc.toNat + k) = v := by
  unfold State.fetchByte at h
  split at h
  · next hk => exact ⟨hk, Option.some.inj h⟩
  · cases h

theorem State.fetchByte_eq_none {s : State} {k : Nat} : s.fetchByte k = none ↔ 255 < s.pc.toNat + k := by
  unfold State.fetchByte
  split <;> simp <;> omega

/-- A fetched instruction: its row stands under the byte at `pc`, and its last byte is at most at 255. -/
theorem fetchDecodeWith_ok {opc : OpcodeMap} {s : State} {i : Instr} (h : fetchDecodeWith opc s = .ok i) :
    ∃ op m, s.fetchByte 0 = some op ∧ decodeOpcode opc op = some m ∧
      decodeOperands m s.fetchByte = .ok i := by
  unfold fetchDecodeWith at h
  rcases decodeFrom_cases opc s.fetchByte with ⟨-, hd⟩ | ⟨op, h0, ⟨-, hd⟩ | ⟨m, hm, hd⟩⟩
  · simp [hd] at h
  · simp [hd] at h
  · rw [hd] at h
    refine ⟨op, m, h0, hm, ?_⟩
    cases hx : decodeOperands m s.fetchByte with
    | ok j => rw [hx] at h; simpa using h
    | error e => rw [hx] at h; simp at h

/-- The opcode byte that operand validation records is the fetched row's byte under the map in use. -/
theorem opcodeByte_of_fetchDecodeWith {opc : OpcodeMap} {s : State} {i : Instr}
    (h : fetchDecodeWith opc s = .ok i) : s.opcodeByte = opc i.mnemonic := by
  obtain ⟨op, m, h0, hm, hi⟩ := fetchDecodeWith_ok h
  have hb : s.opcodeByte = op := (State.fetchByte_eq_some h0).2
  have hmn : i.mnemonic = m := by
    rcases decodeOperands_cases m s.fetchByte with
      ⟨-, e⟩ | ⟨-, -, e⟩ | ⟨_, -, -, e⟩ | ⟨_, -, -, -, e⟩ | ⟨_, _, -, -, -, e⟩ <;>
      cases e.symm.trans hi <;> exact Instr.mnemonic_withOperands m _ _
  rw [hb, hmn, decodeOpcode_sound hm]

end Sys2Proof.Machine
end

