-- ==== Sys2Proof/Tests/Slice0.lean ====
section
/-! SUPPORT. The model's own tests: decoding and one step each, expected results from the spec's rules and vectors
(30_encoding.md, 95_test_vectors.md), and a witness for the hypotheses of every statement that has some. -/

namespace Sys2Proof.Tests

open Sys2Proof Sys2Proof.Machine

/-- The reset state with bytes at `pc`. -/
def bytesAt (pc : PcWord) (bytes : List Byte) : State :=
  { State.reset with pc := pc, mem := Memory.writeList [] pc.toNat bytes }

/-- The next state of an outcome, if it is one. -/
def nextOf : Host.Outcome State Fault Refusal → Option State
  | .next s => some s
  | .fault _ => none
  | .refused _ => none

/-! ### WellFormed refuses an ill-formed term for each check. -/

theorem test_wf_ldi : Instr.wf (.ldi 8 0) = false ∧ Instr.wf (.ldi 7 255) = true := by decide
theorem test_wf_prn : Instr.wf (.prn 8) = false := by decide
theorem test_wf_mul : Instr.wf (.mul 8 0) = false ∧ Instr.wf (.mul 0 8) = false := by decide
theorem test_wf_cmp : Instr.wf (.cmp 9 0) = false ∧ Instr.wf (.cmp 0 255) = false := by decide
theorem test_wf_push : Instr.wf (.push 8) = false := by decide
theorem test_wf_pop : Instr.wf (.pop 128) = false := by decide
theorem test_wf_jmp : Instr.wf (.jmp 8) = false := by decide
theorem test_wf_jeq : Instr.wf (.jeq 9) = false := by decide
theorem test_wf_jne : Instr.wf (.jne 15) = false := by decide

/-! ### Decoding: a word of each row, bit by bit from `30_encoding.md` R45, R47. -/

theorem test_decode_ldi : decode [0b10000010, 0b00000101, 0b11111110] = .ok (.ldi 5 254) := by rfl
theorem test_decode_prn : decode [0b01000111, 0b00000110] = .ok (.prn 6) := by rfl
theorem test_decode_mul : decode [0b10100010, 0b00000001, 0b00000100] = .ok (.mul 1 4) := by rfl
theorem test_decode_cmp : decode [0b10100111, 0b00000111, 0b00000010] = .ok (.cmp 7 2) := by rfl
theorem test_decode_push : decode [0b01000101, 0b00000011] = .ok (.push 3) := by rfl
theorem test_decode_pop : decode [0b01000110, 0b00000111] = .ok (.pop 7) := by rfl
theorem test_decode_jmp : decode [0b01010100, 0b00000010] = .ok (.jmp 2) := by rfl
theorem test_decode_jeq : decode [0b01010101, 0b00000001] = .ok (.jeq 1) := by rfl
theorem test_decode_jne : decode [0b01010110, 0b00000000] = .ok (.jne 0) := by rfl
theorem test_decode_hlt : decode [0b00000001, 0xFF] = .ok .hlt := by rfl

/-- R51: bytes that are instructions elsewhere, and V-F10's neighbours of valid opcodes, are illegal. -/
theorem test_decode_illegal :
    [0x00, 0xA0, 0x50, 0x11, 0x83, 0x84, 0x48, 0x57, 0x65, 0x02, 0x44, 0xA1, 0xA6, 0xC2, 0xFF].all
      (fun op => (decodeOpcode opcodes op).isNone) = true := by decide

/-- R61: an operand byte that is not there. -/
theorem test_decode_truncated : decode [0x82, 0x00] = .error (.noByte 2) ∧ decode [0x45] = .error (.noByte 1) ∧
    decode [] = .error (.noByte 0) := ⟨rfl, rfl, rfl⟩

/-- opcode_table.json's numbering: the second byte is bits 15 to 8. -/
theorem test_decodeTableWord : decodeTableWord 24 0x090182 = some (.ldi 1 9) ∧
    decodeTableWord 8 0xFF0182 = some (.ldi 0 0) ∧ decodeTableWord 8 0x00 = none := by decide

/-! ### One step of each instruction. -/

/-- V-L2: no sign extension. -/
theorem test_ldi : (nextOf (step (bytesAt 0 [0x82, 0x03, 0xFF]))).map (fun t => (t.reg 3, t.pc)) =
    some (255, 3) := by decide

/-- V-L4: the reset stack pointer. -/
theorem test_prn : (nextOf (step (bytesAt 0 [0x47, 0x07]))).map (fun t => (t.out, t.pc)) =
    some ([244], 2) := by decide

/-- V-M4: 200 * 3 = 600, 88 modulo 256. -/
theorem test_mul_wraps :
    (nextOf (step (((bytesAt 0 [0xA2, 0x02, 0x03]).setReg 2 200).setReg 3 3))).map
      (fun t => (t.reg 2, t.reg 3, t.fl, t.pc)) = some (88, 3, 0, 3) := by decide

/-- V-M9: the same register twice, 16 squared. -/
theorem test_mul_same_register :
    (nextOf (step ((bytesAt 0 [0xA2, 0x00, 0x00]).setReg 0 16))).map (fun t => t.reg 0) = some 0 := by decide

/-- V-C4: unsigned, 255 against 0 is Greater; the whole byte is overwritten. -/
theorem test_cmp_greater :
    (nextOf (step (((bytesAt 0 [0xA7, 0x00, 0x01]).setReg 0 255).setFl 0x01))).map (fun t => t.fl) =
      some 0x02 := by decide

/-- V-C5. -/
theorem test_cmp_less :
    (nextOf (step ((bytesAt 0 [0xA7, 0x00, 0x01]).setReg 1 255))).map (fun t => t.fl) = some 0x04 := by decide

/-- V-S3: PUSH R7 stores the decremented pointer. -/
theorem test_push_sp : (nextOf (step (bytesAt 0 [0x45, 0x07]))).map
    (fun t => (t.reg 7, t.memRead 0xF3, t.pc)) = some (0xF3, 0xF3, 2) := by decide

/-- V-S5: the decrement wraps. -/
theorem test_push_wraps :
    (nextOf (step (((bytesAt 6 [0x45, 0x00]).setReg 7 0).setReg 0 0xAB))).map
      (fun t => (t.reg 7, t.memRead 0xFF)) = some (0xFF, 0xAB) := by decide

/-- V-S4: POP R7 leaves the loaded byte plus one. -/
theorem test_pop_sp :
    (nextOf (step (((bytesAt 5 [0x46, 0x07]).setReg 7 0xF3).memWrite 0xF3 0x20))).map
      (fun t => (t.reg 7, t.memRead 0xF3)) = some (0x21, 0x20) := by decide

/-- V-S6: the increment wraps. -/
theorem test_pop_wraps :
    (nextOf (step (((bytesAt 3 [0x46, 0x00]).setReg 7 0xFF).memWrite 0xFF 0x5A))).map
      (fun t => (t.reg 0, t.reg 7, t.pc)) = some (0x5A, 0x00, 5) := by decide

/-- R84's example. -/
theorem test_jmp : (nextOf (step ((bytesAt 19 [0x54, 0x03]).setReg 3 0x17))).map (fun t => t.pc) =
    some 23 := by decide

/-- R85's example. -/
theorem test_jeq_taken :
    (nextOf (step (((bytesAt 12 [0x55, 0x02]).setReg 2 0x10).setFl 0x01))).map (fun t => (t.pc, t.fl)) =
      some (16, 0x01) := by decide

/-- R85: before any CMP the branch is not taken; at 254 it leaves 256. -/
theorem test_jeq_not_taken : (nextOf (step (bytesAt 254 [0x55, 0x02]))).map (fun t => t.pc) =
    some 256 := by decide

/-- V-B4: before any CMP, JNE is taken. -/
theorem test_jne_taken : (nextOf (step ((bytesAt 3 [0x56, 0x00]).setReg 0 6))).map (fun t => t.pc) =
    some 6 := by decide

/-- R86's example. -/
theorem test_jne_not_taken :
    (nextOf (step (((bytesAt 17 [0x56, 0x03]).setReg 3 9).setFl 0x01))).map (fun t => t.pc) =
      some 19 := by decide

/-- V-H3, V-F3: HLT at the last address. -/
theorem test_hlt_at_top : (nextOf (step (bytesAt 255 [0x01]))).map (fun t => (t.pc, t.run)) =
    some (256, .halted) := by decide

/-- V-A1: ADD in the ALU taken alone. -/
theorem test_alu_add :
    (nextOf (aluExecuteNamed "ADD" 0 1 ((State.reset.setReg 0 200).setReg 1 100))).map
      (fun t => (t.reg 0, t.reg 1, t.fl)) = some (44, 100, 0) := by decide

/-- `30_encoding.md` R47: OPC is a parameter; here the bytes of LDI and HLT are exchanged, and LDI R8 records the byte
that was fetched. -/
def exchanged : OpcodeMap
  | .ldi => 0x01
  | .hlt => 0x82
  | m => opcodes m

theorem test_other_opcode_map :
    (nextOf (stepWith exchanged (bytesAt 0 [0x01, 0x03, 0xFF]))).map (fun t => (t.reg 3, t.pc, t.run)) =
      some (255, 3, .running) ∧
    (nextOf (stepWith exchanged (bytesAt 0 [0x82]))).map (fun t => t.run) = some .halted ∧
    (nextOf (stepWith exchanged (bytesAt 0 [0x01, 0x08, 0xFF]))).map (fun t => t.run) =
      some (.faulted (.illegalOperand 0x01 0 8)) := by decide

/-! ### Faults, reset and launch. -/

/-- V-F2, R110: the reset state's first step. -/
theorem test_empty_memory_faults :
    nextOf (step State.reset) = some { State.reset with run := .faulted (.illegalInstruction 0x00 0) } := by decide

/-- V-F7: an illegal opcode at 255 is reported, not the address. -/
theorem test_illegal_at_top : (nextOf (step (bytesAt 255 [0xA0]))).map (fun t => (t.run, t.pc)) =
    some (.faulted (.illegalInstruction 0xA0 255), 255) := by decide

/-- V-F8: AddressRange on operand b comes before IllegalOperand on operand a. -/
theorem test_address_range_first : (nextOf (step (bytesAt 254 [0xA2, 0x09]))).map (fun t => t.run) =
    some (.faulted (.addressRange 256)) := by decide

/-- V-F9b: both operands invalid, a is reported. -/
theorem test_operand_a_first : (nextOf (step (bytesAt 0 [0xA2, 0x08, 0x09]))).map (fun t => t.run) =
    some (.faulted (.illegalOperand 0xA2 0 8)) := by decide

/-- V-F4's last step: a fetch at 256. -/
theorem test_fetch_past_top : (nextOf (step (bytesAt 256 []))).map (fun t => t.run) =
    some (.faulted (.addressRange 256)) := by decide

/-- V-F9e: the launch of an image, byte i at address i. -/
theorem test_launch : (nextOf (launch [0x82, 0x00, 0x09])).map
    (fun t => (t.memRead 0, t.memRead 1, t.memRead 2, t.memRead 3, t.reg 7)) =
      some (0x82, 0x00, 0x09, 0x00, 0xF4) := by decide

/-- The host's word is the next instruction. -/
theorem test_withFetchWord : (nextOf (step (State.reset.withFetchWord 24 0x090182))).map
    (fun t => (t.reg 1, t.pc)) = some (9, 3) := by decide

/-! ### Witnesses: a concrete state and operands for the hypotheses of each statement, clause by clause. -/

theorem witness_LdiRule : 7 < (8 : Byte).toNat ∧
    ((bytesAt 253 [0x82, 8]).run = .running ∧ Memory.read (bytesAt 253 [0x82, 8]).mem 253 = 0x82 ∧
      Memory.read (bytesAt 253 [0x82, 8]).mem 254 = 8) ∧
    ((bytesAt 254 [0x82]).run = .running ∧ Memory.read (bytesAt 254 [0x82]).mem 254 = 0x82) ∧
    ((bytesAt 255 [0x82]).run = .running ∧ Memory.read (bytesAt 255 [0x82]).mem 255 = 0x82) ∧
    (nextOf (exec (.ldi (regByte 7) 255) State.reset)).isSome = true := by decide

theorem witness_PrnRule : 7 < (8 : Byte).toNat ∧
    ((bytesAt 254 [0x47, 8]).run = .running ∧ Memory.read (bytesAt 254 [0x47, 8]).mem 254 = 0x47 ∧
      Memory.read (bytesAt 254 [0x47, 8]).mem 255 = 8) ∧
    (bytesAt 255 [0x47]).run = .running ∧ Memory.read (bytesAt 255 [0x47]).mem 255 = 0x47 := by decide

theorem witness_MulRule : 7 < (8 : Byte).toNat ∧
    ((bytesAt 253 [0xA2, 8]).run = .running ∧ Memory.read (bytesAt 253 [0xA2, 8]).mem 253 = 0xA2 ∧
      Memory.read (bytesAt 253 [0xA2, 8]).mem 254 = 8) ∧
    ((bytesAt 253 [0xA2, 7, 8]).run = .running ∧ Memory.read (bytesAt 253 [0xA2, 7, 8]).mem 253 = 0xA2 ∧
      Memory.read (bytesAt 253 [0xA2, 7, 8]).mem 254 = regByte 7 ∧
      Memory.read (bytesAt 253 [0xA2, 7, 8]).mem 255 = 8) ∧
    ((bytesAt 254 [0xA2]).run = .running ∧ Memory.read (bytesAt 254 [0xA2]).mem 254 = 0xA2) ∧
    ((bytesAt 255 [0xA2]).run = .running ∧ Memory.read (bytesAt 255 [0xA2]).mem 255 = 0xA2) := by decide

theorem witness_CmpRule : 7 < (8 : Byte).toNat ∧
    ((bytesAt 253 [0xA7, 8]).run = .running ∧ Memory.read (bytesAt 253 [0xA7, 8]).mem 253 = 0xA7 ∧
      Memory.read (bytesAt 253 [0xA7, 8]).mem 254 = 8) ∧
    ((bytesAt 253 [0xA7, 7, 8]).run = .running ∧ Memory.read (bytesAt 253 [0xA7, 7, 8]).mem 253 = 0xA7 ∧
      Memory.read (bytesAt 253 [0xA7, 7, 8]).mem 254 = regByte 7 ∧
      Memory.read (bytesAt 253 [0xA7, 7, 8]).mem 255 = 8) ∧
    ((State.reset.reg 0).toNat = (State.reset.reg 1).toNat) ∧
    ((State.reset.reg 7).toNat > (State.reset.reg 1).toNat) ∧
    ((State.reset.reg 0).toNat < (State.reset.reg 7).toNat) ∧
    ((bytesAt 254 [0xA7]).run = .running ∧ Memory.read (bytesAt 254 [0xA7]).mem 254 = 0xA7) ∧
    ((bytesAt 255 [0xA7]).run = .running ∧ Memory.read (bytesAt 255 [0xA7]).mem 255 = 0xA7) := by decide

theorem witness_PushRule : State.reset.mem.wf = true ∧ (0xF4 : Byte) ≠ pushAddress State.reset ∧
    7 < (8 : Byte).toNat ∧
    ((bytesAt 254 [0x45, 8]).run = .running ∧ Memory.read (bytesAt 254 [0x45, 8]).mem 254 = 0x45 ∧
      Memory.read (bytesAt 254 [0x45, 8]).mem 255 = 8) ∧
    (bytesAt 255 [0x45]).run = .running ∧ Memory.read (bytesAt 255 [0x45]).mem 255 = 0x45 := by decide

theorem witness_PopRule : (6 : Reg) ≠ 7 ∧ 7 < (8 : Byte).toNat ∧
    ((bytesAt 254 [0x46, 8]).run = .running ∧ Memory.read (bytesAt 254 [0x46, 8]).mem 254 = 0x46 ∧
      Memory.read (bytesAt 254 [0x46, 8]).mem 255 = 8) ∧
    (bytesAt 255 [0x46]).run = .running ∧ Memory.read (bytesAt 255 [0x46]).mem 255 = 0x46 := by decide

theorem witness_JmpRule : 7 < (8 : Byte).toNat ∧
    ((bytesAt 254 [0x54, 8]).run = .running ∧ Memory.read (bytesAt 254 [0x54, 8]).mem 254 = 0x54 ∧
      Memory.read (bytesAt 254 [0x54, 8]).mem 255 = 8) ∧
    (bytesAt 255 [0x54]).run = .running ∧ Memory.read (bytesAt 255 [0x54]).mem 255 = 0x54 := by decide

theorem witness_JeqRule : (State.reset.setFl 0x01).fl = 0x01 ∧ State.reset.fl ≠ 0x01 ∧ 7 < (8 : Byte).toNat ∧
    ((bytesAt 254 [0x55, 8]).run = .running ∧ Memory.read (bytesAt 254 [0x55, 8]).mem 254 = 0x55 ∧
      Memory.read (bytesAt 254 [0x55, 8]).mem 255 = 8) ∧
    ((bytesAt 255 [0x55]).run = .running ∧ Memory.read (bytesAt 255 [0x55]).mem 255 = 0x55) ∧
    (nextOf (exec (.cmp (regByte 0) (regByte 1)) State.reset)).map (fun t => t.fl) = some 0x01 := by decide

theorem witness_JneRule : State.reset.fl ≠ 0x01 ∧ (State.reset.setFl 0x01).fl = 0x01 ∧ 7 < (8 : Byte).toNat ∧
    ((bytesAt 254 [0x56, 8]).run = .running ∧ Memory.read (bytesAt 254 [0x56, 8]).mem 254 = 0x56 ∧
      Memory.read (bytesAt 254 [0x56, 8]).mem 255 = 8) ∧
    ((bytesAt 255 [0x56]).run = .running ∧ Memory.read (bytesAt 255 [0x56]).mem 255 = 0x56) ∧
    (bytesAt 256 []).pc.toNat ≤ 256 := by decide

theorem witness_HltRule : (bytesAt 255 [0x01]).run = .running ∧ (bytesAt 255 [0x01]).pc.toNat ≤ 255 ∧
    Memory.read (bytesAt 255 [0x01]).mem 255 = 0x01 := by decide

theorem witness_AluUnsupportedOperation : "DIV" ≠ "ADD" ∧ "DIV" ≠ "MUL" ∧ "DIV" ≠ "CMP" := by decide

theorem witness_DecodeOfEncode : opcodes.Distinct := by
  intro m n
  cases m <;> cases n <;> decide

theorem witness_EncodeOfDecode : decodeWith opcodes [0x82, 0x07, 0xFF, 0x00] = .ok (.ldi 7 255) := rfl

theorem witness_StepRunsDecoded : (bytesAt 253 [0x82, 0x07, 0xFF]).run = .running ∧
    (bytesAt 253 [0x82, 0x07, 0xFF]).pc.toNat + (encode (.ldi 7 255)).length ≤ 256 ∧
    (∀ (k : Nat) (h : k < (encode (.ldi 7 255)).length),
      Memory.read (bytesAt 253 [0x82, 0x07, 0xFF]).mem (253 + k) = (encode (.ldi 7 255))[k]) ∧
    decodeFrom opcodes (bytesAt 253 [0x82, 0x07, 0xFF]).fetchByte = .ok (.ldi 7 255) := by
  refine ⟨rfl, by decide, ?_, rfl⟩
  intro k h
  have hk : k < 3 := h
  interval_cases k <;> rfl

theorem witness_AnyOpcodeMap : exchanged.Distinct ∧ (bytesAt 253 [0x01, 7, 255]).run = .running ∧
    (bytesAt 253 [0x01, 7, 255]).pc.toNat + (encodeWith exchanged (.ldi 7 255)).length ≤ 256 ∧
    (∀ (k : Nat) (h : k < (encodeWith exchanged (.ldi 7 255)).length),
      Memory.read (bytesAt 253 [0x01, 7, 255]).mem (253 + k) = (encodeWith exchanged (.ldi 7 255))[k]) ∧
    (Memory.read (bytesAt 255 [0xA0]).mem 255 = 0xA0 ∧ ∀ m, exchanged m ≠ 0xA0) ∧
    (Memory.read (bytesAt 255 [0x01]).mem 255 = exchanged .ldi ∧
      255 < (bytesAt 255 [0x01]).pc.toNat + Mnemonic.arity .ldi) ∧
    (bytesAt 256 []).pc.toNat = 256 := by
  refine ⟨?_, rfl, by decide, ?_, ⟨by decide, ?_⟩, by decide, by decide⟩
  · intro m n
    cases m <;> cases n <;> decide
  · intro k h
    have hk : k < 3 := h
    interval_cases k <;> rfl
  · intro m
    cases m <;> decide

theorem witness_FaultMatrix :
    ((bytesAt 256 []).run = .running ∧ (bytesAt 256 []).pc.toNat = 256) ∧
    ((bytesAt 255 [0xA0]).pc.toNat ≤ 255 ∧ decodeOpcode opcodes 0xA0 = none) ∧
    ((bytesAt 254 [0xA2, 0x09]).run = .running ∧ decodeOpcode opcodes 0xA2 = some .mul ∧
      255 < (bytesAt 254 [0xA2, 0x09]).pc.toNat + Mnemonic.arity .mul) ∧
    ((bytesAt 253 [0xA2, 8, 9]).pc.toNat + Mnemonic.arity .mul ≤ 255 ∧ 1 ≤ Mnemonic.arity .mul ∧
      7 < (8 : Byte).toNat ∧ (7 : Byte).toNat ≤ 7 ∧
      Memory.read (bytesAt 253 [0xA2, 7, 8]).mem 254 = 7 ∧ Memory.read (bytesAt 253 [0xA2, 7, 8]).mem 255 = 8) ∧
    ((bytesAt 255 [0x01]).pc.toNat + Mnemonic.arity .hlt ≤ 255 ∧ Mnemonic.arity .hlt = 0 ∧
      decodeOpcode opcodes 0x01 = some .hlt) := by decide

theorem witness_IllegalOpcodeFaults : (bytesAt 255 [0xA0]).run = .running ∧ (bytesAt 255 [0xA0]).pc.toNat ≤ 255 ∧
    Memory.read (bytesAt 255 [0xA0]).mem 255 = 0xA0 ∧
    (0xA0 : Byte) ∉ [0x82, 0x47, 0xA2, 0xA7, 0x45, 0x46, 0x54, 0x55, 0x56, 0x01] := by decide

theorem witness_FaultsArePrecise : State.reset.run = .running ∧ (nextOf (step State.reset)).map (fun t => t.run) =
    some (.faulted (.illegalInstruction 0x00 0)) := by decide

theorem witness_HaltDeterminism : (bytesAt 255 [0x01]).run = .running ∧
    fetchDecode (bytesAt 255 [0x01]) = .ok .hlt := ⟨rfl, rfl⟩

theorem witness_StoppedIsTerminal : State.reset.halt.run ≠ .running ∧
    (State.reset.raise (.addressRange 256)).run ≠ .running := by decide

theorem witness_RunStateTransitions : (nextOf (step State.reset.halt)).isSome = true ∧ State.reset.halt.run ≠ .running ∧
    (nextOf (step (bytesAt 0 [0x01]))).map (fun t => t.run) = some .halted ∧
    (nextOf (step (bytesAt 0 [0x47, 8]))).map (fun t => t.run) = some (.faulted (.illegalOperand 0x47 0 8)) := by
  decide

theorem witness_PcTable :
    fetchDecode (bytesAt 253 [0x82, 7, 8]) = .ok (.ldi 7 8) ∧ Instr.wf (.ldi 7 8) = true ∧
    fetchDecode (bytesAt 254 [0x45, 7]) = .ok (.push 7) ∧ Instr.wf (.push 7) = true ∧
    fetchDecode (bytesAt 254 [0x54, 7]) = .ok (.jmp (regByte 7)) ∧
    fetchDecode ((bytesAt 254 [0x55, 7]).setFl 0x01) = .ok (.jeq (regByte 7)) ∧
    fetchDecode (bytesAt 254 [0x56, 7]) = .ok (.jne (regByte 7)) ∧
    fetchDecode (bytesAt 255 [0x01]) = .ok .hlt ∧
    (nextOf (step (bytesAt 256 []))).map (fun t => t.run) = some (.faulted (.addressRange 256)) ∧
    (nextOf (step (bytesAt 253 [0x82, 7, 8]))).isSome = true :=
  ⟨rfl, rfl, rfl, rfl, rfl, rfl, rfl, rfl, by decide, by decide⟩

theorem witness_RegisterWriters : (nextOf (step (bytesAt 0 [0x46, 0x00]))).map (fun t => (t.reg 7, State.reset.reg 7)) =
    some (0xF5, 0xF4) := by decide

theorem witness_FlagWriters : (nextOf (step (bytesAt 0 [0xA7, 0, 0]))).map (fun t => t.fl) = some 0x01 := by decide

theorem witness_FlagReaders : (Instr.mul 7 7).mnemonic ≠ .jeq ∧ (Instr.mul 7 7).mnemonic ≠ .jne ∧
    (nextOf (exec (.mul 7 7) State.reset)).isSome = true := by decide

theorem witness_MemoryWriters : (nextOf (step (bytesAt 0 [0x45, 0x07]))).map
    (fun t => (t.memRead 0xF3, (bytesAt 0 [0x45, 0x07]).memRead 0xF3)) = some (0xF3, 0x00) := by decide

theorem witness_OutputChannel : (bytesAt 254 [0x47, 7]).run = .running ∧
    fetchDecode (bytesAt 254 [0x47, 7]) = .ok (.prn (regByte 7)) ∧
    (nextOf (step State.reset.halt)).isSome = true ∧ State.reset.halt.run ≠ .running ∧
    (∀ r : Reg, fetchDecode (bytesAt 0 [0x01]) ≠ .ok (.prn (regByte r))) := by
  refine ⟨rfl, rfl, by decide, by decide, ?_⟩
  intro r h
  cases h

theorem witness_MemoryExtensional : Memory.wf [(255, 1)] = true ∧
    (∀ a : Nat, a < 256 → Memory.read [(255, 1)] a = Memory.read (Memory.write [] 255 1) a) :=
  ⟨rfl, fun _ _ => rfl⟩

theorem witness_FetchSeesPush : State.reset.mem.wf = true ∧
    (nextOf (exec (.push (regByte 7)) { State.reset with pc := 0xF1 })).map (fun t => t.pc.toNat + 0) =
      some (pushAddress { State.reset with pc := 0xF1 }).toNat := by decide

theorem witness_PushPopRoundTrip : State.reset.mem.wf = true ∧ (0 : Reg) ≠ 7 ∧ (6 : Reg) ≠ 7 := by decide

theorem witness_NestedPushesPop : State.reset.mem.wf = true ∧ (∀ r ∈ List.replicate 256 (6 : Reg), r ≠ 7) ∧
    (List.replicate 256 (6 : Reg)).length ≤ 256 := by
  refine ⟨rfl, ?_, List.length_replicate.le⟩
  intro r h
  rw [List.eq_of_mem_replicate h]
  decide

theorem witness_JumpToItselfLoops : ((bytesAt 254 [0x54, 0]).setReg 0 254).run = .running ∧
    Memory.read ((bytesAt 254 [0x54, 0]).setReg 0 254).mem 254 = 0x54 ∧
    Memory.read ((bytesAt 254 [0x54, 0]).setReg 0 254).mem 255 = regByte 0 ∧
    (((bytesAt 254 [0x54, 0]).setReg 0 254).reg 0).toNat = ((bytesAt 254 [0x54, 0]).setReg 0 254).pc.toNat := by
  decide

theorem witness_LaunchState : (List.replicate 256 (1 : Byte)).length ≤ 256 := List.length_replicate.le

theorem witness_LongImageRefused : 256 < (List.replicate 257 (1 : Byte)).length :=
  Nat.lt_of_lt_of_eq (by decide) List.length_replicate.symm

theorem witness_LaunchEstablishesInv : (nextOf (launch [0x01])).isSome = true := by decide

theorem witness_StepKeepsInv : (bytesAt 254 [0x47, 7]).Inv ∧ (nextOf (step (bytesAt 254 [0x47, 7]))).isSome = true :=
  ⟨⟨by decide, by decide, .inl rfl, rfl⟩, by decide⟩

end Sys2Proof.Tests
end

/-! PROOFS. The decoder and the step for every distinct opcode map. -/

namespace Sys2Proof

/-- The three shapes of an encoded instruction: its row's opcode byte, then exactly the operand bytes its row has
(`30_encoding.md` R43 to R45). -/
theorem encodeWith_cases (opc : OpcodeMap) (i : Instr) :
    (i.mnemonic.arity = 0 ∧ encodeWith opc i = [opc i.mnemonic] ∧ i.mnemonic.withOperands 0 0 = i) ∨
    (∃ a, i.mnemonic.arity = 1 ∧ encodeWith opc i = [opc i.mnemonic, a] ∧ i.mnemonic.withOperands a 0 = i) ∨
    (∃ a b, i.mnemonic.arity = 2 ∧ encodeWith opc i = [opc i.mnemonic, a, b] ∧
      i.mnemonic.withOperands a b = i) := by
  cases i with
  | hlt => exact .inl ⟨rfl, rfl, rfl⟩
  | prn a | push a | pop a | jmp a | jeq a | jne a => exact .inr (.inl ⟨a, rfl, rfl, rfl⟩)
  | ldi a b | mul a b | cmp a b => exact .inr (.inr ⟨a, b, rfl, rfl, rfl⟩)

/-- A byte finds no row exactly when it is no value of the map (`30_encoding.md` R50). -/
theorem decodeOpcode_eq_none_iff {opc : OpcodeMap} {op : Byte} :
    decodeOpcode opc op = none ↔ ∀ m, opc m ≠ op := by
  simp [decodeOpcode, List.find?_eq_none, Mnemonic.mem_all]

theorem decodeFrom_of_no_opcode {opc : OpcodeMap} {byteAt : Nat → Option Byte} (h0 : byteAt 0 = none) :
    decodeFrom opc byteAt = .error (.noByte 0) := by
  simp [decodeFrom, h0]

theorem decodeFrom_of_illegal_opcode {opc : OpcodeMap} {byteAt : Nat → Option Byte} {op : Byte}
    (h0 : byteAt 0 = some op) (hop : ∀ m, opc m ≠ op) : decodeFrom opc byteAt = .error (.illegalOpcode op) := by
  simp [decodeFrom, h0, decodeOpcode_eq_none_iff.mpr hop]

/-- Under a row's own opcode byte, decoding is that row's operand fetch. -/
theorem decodeFrom_of_opcode {opc : OpcodeMap} (hd : opc.Distinct) {byteAt : Nat → Option Byte} {m : Mnemonic}
    (h0 : byteAt 0 = some (opc m)) : decodeFrom opc byteAt = decodeOperands m byteAt := by
  simp [decodeFrom, h0, decodeOpcode_complete hd]

/-- The decoder reads back an encoded instruction from any source that begins with its bytes, whatever the distinct
map (`30_encoding.md` R54). -/
theorem decodeFrom_of_encodeWith {opc : OpcodeMap} (hd : opc.Distinct) {byteAt : Nat → Option Byte} {i : Instr}
    (hb : ∀ (k : Nat) (h : k < (encodeWith opc i).length), byteAt k = some (encodeWith opc i)[k]) :
    decodeFrom opc byteAt = .ok i := by
  rcases encodeWith_cases opc i with ⟨hm, he, hi⟩ | ⟨a, hm, he, hi⟩ | ⟨a, b, hm, he, hi⟩ <;>
    simp only [he, List.length_cons, List.length_nil] at hb <;>
    rw [decodeFrom_of_opcode hd (hb 0 (by omega))]
  · simp only [decodeOperands, hm, hi]
  · have h1 : byteAt 1 = some a := hb 1 (by omega)
    simp only [decodeOperands, hm, h1, hi]
  · have h1 : byteAt 1 = some a := hb 1 (by omega)
    have h2 : byteAt 2 = some b := hb 2 (by omega)
    simp only [decodeOperands, hm, h1, h2, hi]

end Sys2Proof

namespace Sys2Proof.Machine

theorem State.fetchByte_of_le {s : State} {k : Nat} (h : s.pc.toNat + k ≤ 255) :
    s.fetchByte k = some (Memory.read s.mem (s.pc.toNat + k)) := by
  simp [State.fetchByte, h]

/-- A running machine whose bytes at `pc` decode executes what they decode to. -/
theorem stepWith_of_decodeFrom_ok {opc : OpcodeMap} {s : State} {i : Instr} (hr : s.run = .running)
    (h : decodeFrom opc s.fetchByte = .ok i) : stepWith opc s = exec i s :=
  stepWith_of_ok hr (by simp [fetchDecodeWith, h])

/-- A running machine whose bytes at `pc` do not decode takes the fault of that error. -/
theorem stepWith_of_decodeFrom_error {opc : OpcodeMap} {s : State} {e : DecodeError} (hr : s.run = .running)
    (h : decodeFrom opc s.fetchByte = .error e) : stepWith opc s = .next (s.raise (fetchFault s e)) :=
  stepWith_of_error hr (by simp [fetchDecodeWith, h])

/-- Operand fetch that runs past address 255 stops at the first missing byte, which is the one at 256
(`20_memory.md` R33). -/
theorem decodeOperands_of_truncated {s : State} {m : Mnemonic} (hpc : s.pc.toNat ≤ 255)
    (hm : 255 < s.pc.toNat + m.arity) :
    ∃ k, s.pc.toNat + k = 256 ∧ decodeOperands m s.fetchByte = .error (.noByte k) := by
  rcases decodeOperands_cases m s.fetchByte with
    ⟨h, -⟩ | ⟨-, h1, e⟩ | ⟨a, h, h1, -⟩ | ⟨a, -, h1, h2, e⟩ | ⟨a, b, h, -, h2, -⟩
  · omega
  · have := State.fetchByte_eq_none.mp h1
    exact ⟨1, by omega, e⟩
  · have := (State.fetchByte_eq_some h1).1
    omega
  · have := (State.fetchByte_eq_some h1).1
    have := State.fetchByte_eq_none.mp h2
    exact ⟨2, by omega, e⟩
  · have := (State.fetchByte_eq_some h2).1
    omega

section StepUnderMap

variable {opc : OpcodeMap} {s : State}

/-- A whole instruction at `pc` is executed, under its own byte of any distinct map. -/
theorem stepWith_of_encodeWith (hd : opc.Distinct) (hr : s.run = .running) {i : Instr}
    (hfit : s.pc.toNat + (encodeWith opc i).length ≤ 256)
    (hb : ∀ (k : Nat) (h : k < (encodeWith opc i).length),
      Memory.read s.mem (s.pc.toNat + k) = (encodeWith opc i)[k]) : stepWith opc s = exec i s := by
  refine stepWith_of_decodeFrom_ok hr (decodeFrom_of_encodeWith hd fun k hk => ?_)
  rw [State.fetchByte_of_le (by omega), hb k hk]

/-- A byte at `pc` that is no value of the map raises IllegalInstruction (`30_encoding.md` R50). -/
theorem stepWith_of_illegal_opcode (hr : s.run = .running) (hpc : s.pc.toNat ≤ 255)
    (hop : ∀ m, opc m ≠ Memory.read s.mem s.pc.toNat) :
    stepWith opc s = .next (s.raise (.illegalInstruction (Memory.read s.mem s.pc.toNat) s.pc)) :=
  stepWith_of_decodeFrom_error hr (decodeFrom_of_illegal_opcode (State.fetchByte_of_le hpc) hop)

/-- An instruction whose last byte would lie above address 255 raises AddressRange(256). -/
theorem stepWith_of_truncated (hd : opc.Distinct) (hr : s.run = .running) {m : Mnemonic} (hpc : s.pc.toNat ≤ 255)
    (hop : Memory.read s.mem s.pc.toNat = opc m) (hm : 255 < s.pc.toNat + m.arity) :
    stepWith opc s = .next (s.raise (.addressRange 256)) := by
  obtain ⟨k, hk, he⟩ := decodeOperands_of_truncated hpc hm
  have h0 : s.fetchByte 0 = some (opc m) := hop ▸ State.fetchByte_of_le hpc
  rw [stepWith_of_decodeFrom_error hr ((decodeFrom_of_opcode hd h0).trans he), fetchFault, hk]

/-- A fetch at 256 raises AddressRange(256) (`20_memory.md` R33). -/
theorem stepWith_of_pc_eq_256 (hr : s.run = .running) (hpc : s.pc.toNat = 256) :
    stepWith opc s = .next (s.raise (.addressRange 256)) := by
  have h0 : s.fetchByte 0 = none := State.fetchByte_eq_none.mpr (by omega)
  rw [stepWith_of_decodeFrom_error hr (decodeFrom_of_no_opcode h0), fetchFault, hpc]

end StepUnderMap

/-- Settles O42: one lemma per clause about `stepWith`, each from what the decoder answers on the bytes at `pc`. -/
theorem anyOpcodeMap : Obligations.AnyOpcodeMap := by
  unfold Obligations.AnyOpcodeMap
  refine ⟨fun opc hd s hr => ⟨?_, ?_, ?_, ?_⟩, core_eq_machineWith.symm⟩
  · intro i hfit hb
    exact stepWith_of_encodeWith hd hr hfit hb
  · rintro op hpc rfl hop
    exact stepWith_of_illegal_opcode hr hpc hop
  · intro m hpc hop hm
    exact stepWith_of_truncated hd hr hpc hop hm
  · intro hpc
    exact stepWith_of_pc_eq_256 hr hpc

end Sys2Proof.Machine

/-! PROOFS. The state and its invariant: what a completed instruction and a step leave in each field. -/

namespace Sys2Proof.Machine

/-- `Completes s i t`: the well-formed instruction `i`, executed from `s`, completes with `t`. One constructor per
row of the table, two for a row with two branches; `completes_iff` ties it to `exec`. -/
inductive Completes (s : State) : Instr → State → Prop where
  | ldi (r : Reg) (b : Byte) : Completes s (.ldi (regByte r) b) ((s.setReg r b).advance 3)
  | prn (r : Reg) : Completes s (.prn (regByte r)) ((s.emit (s.reg r)).advance 2)
  | mul (r q : Reg) : Completes s (.mul (regByte r) (regByte q))
      ((s.setReg r (trunc8 ((s.reg r).toNat * (s.reg q).toNat))).advance 3)
  | cmp (r q : Reg) : Completes s (.cmp (regByte r) (regByte q))
      ((s.setFl (compareFlags (s.reg r) (s.reg q))).advance 3)
  | push (r : Reg) : Completes s (.push (regByte r)) ((pushReg r s).advance 2)
  | pop (r : Reg) : Completes s (.pop (regByte r)) ((popReg r s).advance 2)
  | jmp (r : Reg) : Completes s (.jmp (regByte r)) (s.jump (jumpTarget s r))
  | jeqTaken (r : Reg) (hfl : s.fl = 0x01) : Completes s (.jeq (regByte r)) (s.jump (jumpTarget s r))
  | jeqUntaken (r : Reg) (hfl : s.fl ≠ 0x01) : Completes s (.jeq (regByte r)) (s.advance 2)
  | jneTaken (r : Reg) (hfl : s.fl ≠ 0x01) : Completes s (.jne (regByte r)) (s.jump (jumpTarget s r))
  | jneUntaken (r : Reg) (hfl : s.fl = 0x01) : Completes s (.jne (regByte r)) (s.advance 2)
  | hlt : Completes s .hlt (s.advance 1).halt

theorem isRegIndex_regByte (r : Reg) : isRegIndex (regByte r) = true :=
  isRegIndex_iff.mpr ⟨r, rfl⟩

section Completes

variable {s t u : State} {i : Instr}

theorem Completes.wf (h : Completes s i t) : i.wf = true := by
  cases h <;> simp [Instr.wf, isRegIndex_regByte]

theorem Completes.exec_eq (h : Completes s i t) : exec i s = .next t := by
  cases h with
  | ldi r b => exact execLdi_regByte r b s
  | prn r => exact execPrn_regByte r s
  | mul r q => exact execMul_regByte r q s
  | cmp r q => exact execCmp_regByte r q s
  | push r => exact execPush_regByte r s
  | pop r => exact execPop_regByte r s
  | jmp r => exact execJmp_regByte r s
  | jeqTaken r hfl => exact (execJeq_regByte r s).trans (by rw [if_pos ((equalHolds_iff s).mpr hfl)])
  | jeqUntaken r hfl => exact (execJeq_regByte r s).trans (by rw [if_neg (mt (equalHolds_iff s).mp hfl)])
  | jneTaken r hfl => exact (execJne_regByte r s).trans (by rw [if_neg (mt (equalHolds_iff s).mp hfl)])
  | jneUntaken r hfl => exact (execJne_regByte r s).trans (by rw [if_pos ((equalHolds_iff s).mpr hfl)])
  | hlt => rfl

theorem exists_completes (s : State) (hw : i.wf = true) : ∃ t, Completes s i t := by
  rcases wf_cases hw with ⟨r, b, rfl⟩ | ⟨r, rfl⟩ | ⟨r, q, rfl⟩ | ⟨r, q, rfl⟩ | ⟨r, rfl⟩ | ⟨r, rfl⟩ | ⟨r, rfl⟩ |
    ⟨r, rfl⟩ | ⟨r, rfl⟩ | rfl
  · exact ⟨_, .ldi r b⟩
  · exact ⟨_, .prn r⟩
  · exact ⟨_, .mul r q⟩
  · exact ⟨_, .cmp r q⟩
  · exact ⟨_, .push r⟩
  · exact ⟨_, .pop r⟩
  · exact ⟨_, .jmp r⟩
  · exact (em (s.fl = 0x01)).elim (fun h => ⟨_, .jeqTaken r h⟩) fun h => ⟨_, .jeqUntaken r h⟩
  · exact (em (s.fl = 0x01)).elim (fun h => ⟨_, .jneUntaken r h⟩) fun h => ⟨_, .jneTaken r h⟩
  · exact ⟨_, .hlt⟩

theorem Completes.eq_of_exec (h : Completes s i u) (he : exec i s = .next t) : t = u := by
  simpa [h.exec_eq, eq_comm] using he

theorem completes_iff : Completes s i t ↔ i.wf = true ∧ exec i s = .next t := by
  refine ⟨fun h => ⟨h.wf, h.exec_eq⟩, fun ⟨hw, he⟩ => ?_⟩
  obtain ⟨u, hu⟩ := exists_completes s hw
  exact hu.eq_of_exec he ▸ hu

/-- HLT ends the run; every other completed instruction keeps the run state (`10_state.md` R20). -/
theorem Completes.run (h : Completes s i t) : t.run = if i = .hlt then .halted else s.run := by
  cases h <;> rfl

/-- `10_state.md` R15: the next instruction, or the target of a jump. -/
theorem Completes.pc (h : Completes s i t) :
    t.pc = BitVec.ofNat 9 (s.pc.toNat + i.length) ∨
    (i.mnemonic ∈ [Mnemonic.jmp, .jeq, .jne] ∧ ∃ r, t.pc = jumpTarget s r) := by
  cases h with
  | jmp r | jeqTaken r _ | jneTaken r _ => exact .inr ⟨by simp [Instr.mnemonic], r, rfl⟩
  | _ => exact .inl rfl

/-- `10_state.md` R10: the registers that an instruction writes. -/
theorem Completes.reg_writer (h : Completes s i t) {q : Reg} (hq : t.reg q ≠ s.reg q) :
    (∃ b, i = .ldi (regByte q) b) ∨ (∃ b, i = .mul (regByte q) b) ∨ (q = 7 ∧ ∃ a, i = .push a) ∨
    ∃ r : Reg, (q = r ∨ q = 7) ∧ i = .pop (regByte r) := by
  have setReg_only : ∀ {r : Reg} {v : Byte}, (s.setReg r v).reg q ≠ s.reg q → q = r := fun {r v} hv =>
    by_contra fun hne => hv (s.setReg_reg_of_ne r q v hne)
  cases h with
  | ldi r b => exact .inl ⟨b, by rw [setReg_only hq]⟩
  | mul r p => exact .inr (.inl ⟨_, by rw [setReg_only hq]⟩)
  | push r => exact .inr (.inr (.inl ⟨setReg_only hq, _, rfl⟩))
  | pop r =>
    refine .inr (.inr (.inr ⟨r, ?_, rfl⟩))
    by_contra! hne
    exact hq (((s.setReg r _).setReg_reg_of_ne _ q _ hne.2).trans (s.setReg_reg_of_ne r q _ hne.1))
  | _ => exact absurd rfl hq

/-- `10_state.md` R17: CMP alone writes `FL`, with one of three values. -/
theorem Completes.fl (h : Completes s i t) :
    t.fl = s.fl ∨ (∃ a b, i = .cmp a b) ∧ (t.fl = 0x01 ∨ t.fl = 0x02 ∨ t.fl = 0x04) := by
  cases h with
  | cmp r q =>
    refine .inr ⟨⟨_, _, rfl⟩, ?_⟩
    rcases compareFlags_cases (s.reg r) (s.reg q) with ⟨-, e⟩ | ⟨-, e⟩ | ⟨-, e⟩
    · exact .inl e
    · exact .inr (.inl e)
    · exact .inr (.inr e)
  | _ => exact .inl rfl

/-- `20_memory.md` R31: PUSH alone writes memory. -/
theorem Completes.mem (h : Completes s i t) :
    t.mem = s.mem ∨ ∃ r, i = .push (regByte r) ∧ t.mem = (pushReg r s).mem := by
  cases h with
  | push r => exact .inr ⟨r, rfl, rfl⟩
  | _ => exact .inl rfl

/-- `10_state.md` R24: PRN alone appends to `OUT`. -/
theorem Completes.out (h : Completes s i t) :
    t.out = s.out ∨ ∃ r, i = .prn (regByte r) ∧ t.out = s.out ++ [s.reg r] := by
  cases h with
  | prn r => exact .inr ⟨r, rfl, rfl⟩
  | _ => exact .inl rfl

/-- Two completions from states that differ in `FL` and `OUT` alone: for JEQ and JNE `FL` must be the same, and then
the results differ in these two fields alone. -/
theorem Completes.replace_fl_out (h : Completes s i t) {v : Byte} (o : List Byte)
    (hv : v = s.fl ∨ (i.mnemonic ≠ .jeq ∧ i.mnemonic ≠ .jne)) :
    ∃ v' o', Completes { s with fl := v, out := o } i { t with fl := v', out := o' } ∧
      (v = s.fl → v' = t.fl) ∧ (o = s.out → o' = t.out) := by
  have hbranch : (i.mnemonic = .jeq ∨ i.mnemonic = .jne) → v = s.fl := fun hm =>
    hv.resolve_right fun hn => hm.elim hn.1 hn.2
  cases h with
  | ldi r b => exact ⟨v, o, .ldi r b, id, id⟩
  | prn r => exact ⟨v, o ++ [s.reg r], .prn r, id, fun e => e ▸ rfl⟩
  | mul r q => exact ⟨v, o, .mul r q, id, id⟩
  | cmp r q => exact ⟨_, o, .cmp r q, fun _ => rfl, id⟩
  | push r => exact ⟨v, o, .push r, id, id⟩
  | pop r => exact ⟨v, o, .pop r, id, id⟩
  | jmp r => exact ⟨v, o, .jmp r, id, id⟩
  | jeqTaken r hfl => exact ⟨v, o, .jeqTaken r ((hbranch (.inl rfl)).trans hfl), id, id⟩
  | jeqUntaken r hfl => exact ⟨v, o, .jeqUntaken r fun e => hfl ((hbranch (.inl rfl)).symm.trans e), id, id⟩
  | jneTaken r hfl => exact ⟨v, o, .jneTaken r fun e => hfl ((hbranch (.inr rfl)).symm.trans e), id, id⟩
  | jneUntaken r hfl => exact ⟨v, o, .jneUntaken r ((hbranch (.inr rfl)).trans hfl), id, id⟩
  | hlt => exact ⟨v, o, .hlt, id, id⟩

/-- The same for `exec` of any instruction: an invalid operand is rejected in both states. -/
theorem exec_replace_fl_out (h : exec i s = .next t) {v : Byte} (o : List Byte)
    (hv : v = s.fl ∨ (i.mnemonic ≠ .jeq ∧ i.mnemonic ≠ .jne)) :
    ∃ v' o', exec i { s with fl := v, out := o } = .next { t with fl := v', out := o' } ∧
      (v = s.fl → v' = t.fl) ∧ (o = s.out → o' = t.out) := by
  cases hw : i.wf with
  | true =>
    obtain ⟨v', o', hc, hkeep⟩ := (completes_iff.mpr ⟨hw, h⟩).replace_fl_out o hv
    exact ⟨v', o', hc.exec_eq, hkeep⟩
  | false =>
    obtain ⟨w, -, he⟩ := exec_of_not_wf hw
    obtain rfl : s.raise _ = t := by simpa [he s] using h
    exact ⟨v, o, he _, id, id⟩

end Completes

section Step

variable {s t u : State} {i : Instr}

/-- Everything that a step can answer: the stopped state itself, a fault of fetch or decode, IllegalOperand of an
ill-formed instruction, or the completion of a well-formed one. -/
theorem step_next_cases (h : step s = .next t) :
    (s.run ≠ .running ∧ t = s) ∨
    (s.run = .running ∧ ∃ f, fetchDecode s = .error f ∧ t = s.raise f) ∨
    (s.run = .running ∧ ∃ i v, fetchDecode s = .ok i ∧ i.wf = false ∧ 7 < v.toNat ∧
      t = s.raise (.illegalOperand (opcodes i.mnemonic) s.pc v)) ∨
    (s.run = .running ∧ ∃ i, fetchDecode s = .ok i ∧ Completes s i t) := by
  rcases step_cases s with ⟨hr, e⟩ | ⟨hr, f, hf, e⟩ | ⟨hr, i, hi, e⟩ <;> rw [e] at h
  · cases h
    exact .inl ⟨hr, rfl⟩
  · cases h
    exact .inr (.inl ⟨hr, f, hf, rfl⟩)
  · cases hw : i.wf with
    | true => exact .inr (.inr (.inr ⟨hr, i, hi, completes_iff.mpr ⟨hw, h⟩⟩))
    | false =>
      obtain ⟨v, hv, he⟩ := exec_of_not_wf hw
      rw [he, opcodeByte_of_fetchDecodeWith hi] at h
      cases h
      exact .inr (.inr (.inl ⟨hr, i, v, hi, hw, hv, rfl⟩))

/-- A step that does not complete an instruction changes `run` at most (`60_exceptions.md` R94, R95). -/
theorem step_completes_or_only_run (h : step s = .next t) :
    (s.run = .running ∧ ∃ i, fetchDecode s = .ok i ∧ Completes s i t) ∨ ∃ r, t = { s with run := r } := by
  rcases step_next_cases h with ⟨-, rfl⟩ | ⟨-, f, -, rfl⟩ | ⟨-, i, v, -, -, -, rfl⟩ | hc
  · exact .inr ⟨_, rfl⟩
  · exact .inr ⟨_, rfl⟩
  · exact .inr ⟨_, rfl⟩
  · exact .inl hc

theorem step_of_stopped (hr : s.run ≠ .running) : step s = .next s :=
  (step_cases s).elim And.right fun h => absurd (h.elim And.left And.left) hr

theorem step_of_fetchDecode (hr : s.run = .running) (hi : fetchDecode s = .ok i) : step s = exec i s :=
  stepWith_of_ok hr hi

theorem completes_of_step (hr : s.run = .running) (hi : fetchDecode s = .ok i) (hw : i.wf = true)
    (h : step s = .next t) : Completes s i t :=
  completes_iff.mpr ⟨hw, step_of_fetchDecode hr hi ▸ h⟩

theorem Completes.eq_of_step (h : Completes s i u) (hr : s.run = .running) (hi : fetchDecode s = .ok i)
    (hs : step s = .next t) : t = u :=
  h.eq_of_exec (step_of_fetchDecode hr hi ▸ hs)

/-- A fetched instruction ends at address 255 at most (`20_memory.md` R33). -/
theorem fetched_fits (h : fetchDecode s = .ok i) : s.pc.toNat + i.length ≤ 256 := by
  obtain ⟨op, m, h0, -, hi⟩ := fetchDecodeWith_ok h
  have hlen : ∀ a b, (m.withOperands a b).length = 1 + m.arity := fun a b => by
    rw [Instr.length, Instr.mnemonic_withOperands]
  have := (State.fetchByte_eq_some h0).1
  rcases decodeOperands_cases m s.fetchByte with
    ⟨hm, e⟩ | ⟨-, -, e⟩ | ⟨a, hm, h1, e⟩ | ⟨a, -, -, -, e⟩ | ⟨a, b, hm, -, h2, e⟩ <;> cases e.symm.trans hi
  · rw [hlen]
    omega
  · have := (State.fetchByte_eq_some h1).1
    rw [hlen]
    omega
  · have := (State.fetchByte_eq_some h2).1
    rw [hlen]
    omega

/-- The faults of fetch and decode from a `pc` that a run reaches (`60_exceptions.md` R91; `20_memory.md` R33). -/
theorem fetchDecode_error_cases {f : Fault} (hpc : s.pc.toNat ≤ 256) (h : fetchDecode s = .error f) :
    f = .addressRange 256 ∨
    ∃ op, Memory.read s.mem s.pc.toNat = op ∧ decodeOpcode opcodes op = none ∧ f = .illegalInstruction op s.pc := by
  have fault_eq : ∀ {e}, decodeFrom opcodes s.fetchByte = .error e → f = fetchFault s e := fun {e} he => by
    simpa [fetchDecode, fetchDecodeWith, he, eq_comm] using h
  have noByte_eq : ∀ {k}, s.pc.toNat + k = 256 → decodeFrom opcodes s.fetchByte = .error (.noByte k) →
      f = .addressRange 256 := fun hk he => by rw [fault_eq he, fetchFault, hk]
  rcases decodeFrom_cases opcodes s.fetchByte with ⟨h0, e⟩ | ⟨op, h0, ⟨hop, e⟩ | ⟨m, -, e⟩⟩
  · have := State.fetchByte_eq_none.mp h0
    exact .inl (noByte_eq (by omega) e)
  · exact .inr ⟨op, (State.fetchByte_eq_some h0).2, hop, fault_eq e⟩
  · have hle := (State.fetchByte_eq_some h0).1
    rcases Nat.lt_or_ge 255 (s.pc.toNat + m.arity) with hm | hm
    · obtain ⟨k, hk, e'⟩ := decodeOperands_of_truncated (by omega) hm
      exact .inl (noByte_eq hk (e.trans e'))
    · rcases decodeOperands_cases m s.fetchByte with
        ⟨-, e'⟩ | ⟨ha, h1, -⟩ | ⟨a, -, -, e'⟩ | ⟨a, ha, -, h2, -⟩ | ⟨a, b, -, -, -, e'⟩
      · simp [fetchDecode, fetchDecodeWith, e, e'] at h
      · have := State.fetchByte_eq_none.mp h1
        omega
      · simp [fetchDecode, fetchDecodeWith, e, e'] at h
      · have := State.fetchByte_eq_none.mp h2
        omega
      · simp [fetchDecode, fetchDecodeWith, e, e'] at h

/-! ### The invariant. -/

theorem State.Inv.raise {f : Fault} (h : s.Inv) (hf : recordedFaultOk (s.raise f) = true) : (s.raise f).Inv :=
  ⟨h.mem_wf, h.pc_le, h.fl_one, hf⟩

theorem recordedFaultOk_fetch {f : Fault} (hpc : s.pc.toNat ≤ 256) (h : fetchDecode s = .error f) :
    recordedFaultOk (s.raise f) = true := by
  rcases fetchDecode_error_cases hpc h with rfl | ⟨op, hop, hd, rfl⟩
  · simp [recordedFaultOk]
  · simp [recordedFaultOk, hop, hd]

theorem recordedFaultOk_operand {v : Byte} (hi : fetchDecode s = .ok i) (hv : 7 < v.toNat) :
    recordedFaultOk (s.raise (.illegalOperand (opcodes i.mnemonic) s.pc v)) = true := by
  have hop : Memory.read s.mem s.pc.toNat = opcodes i.mnemonic := opcodeByte_of_fetchDecodeWith hi
  simpa [recordedFaultOk, hop, isRegIndex] using hv

theorem Completes.mem_wf (h : Completes s i t) (hm : s.mem.wf = true) : t.mem.wf = true := by
  rcases h.mem with e | ⟨r, -, e⟩
  · rwa [e]
  · rw [e, pushReg_mem]
    exact Memory.write_wf hm (pushAddress s).isLt

theorem Completes.pc_le (h : Completes s i t) (hfit : s.pc.toNat + i.length ≤ 256) : t.pc.toNat ≤ 256 := by
  rcases h.pc with e | ⟨-, r, e⟩
  · rw [e, BitVec.toNat_ofNat]
    omega
  · rw [e, jumpTarget_toNat]
    exact (s.reg r).isLt.le

theorem Completes.fault_ok (h : Completes s i t) (hr : s.run = .running) : recordedFaultOk t = true := by
  have hrun := h.run
  rw [hr] at hrun
  split at hrun <;> simp [recordedFaultOk, hrun]

theorem Completes.inv (h : Completes s i t) (hs : s.Inv) (hr : s.run = .running)
    (hfit : s.pc.toNat + i.length ≤ 256) : t.Inv where
  mem_wf := h.mem_wf hs.mem_wf
  pc_le := h.pc_le hfit
  fl_one := h.fl.elim (fun e => e ▸ hs.fl_one) fun hcmp => .inr hcmp.2
  fault_ok := h.fault_ok hr

end Step

/-- Settles O41: each of the four answers of a step keeps the invariant. -/
theorem stepKeepsInv : Obligations.StepKeepsInv := by
  unfold Obligations.StepKeepsInv
  intro s t hs h
  rcases step_next_cases h with ⟨-, rfl⟩ | ⟨-, f, hf, rfl⟩ | ⟨-, i, v, hi, -, hv, rfl⟩ | ⟨hr, i, hi, hc⟩
  · exact hs
  · exact hs.raise (recordedFaultOk_fetch hs.pc_le hf)
  · exact hs.raise (recordedFaultOk_operand hi hv)
  · exact hc.inv hs hr (fetched_fits hi)

/-! ### The run state and `pc`. -/

section Table

variable {s t : State} {i : Instr}

theorem fetchDecode_hlt_of_halted (h : step s = .next t) (hr : s.run = .running) (ht : t.run = .halted) :
    fetchDecode s = .ok .hlt := by
  rcases step_next_cases h with ⟨hn, -⟩ | ⟨-, f, -, rfl⟩ | ⟨-, i, v, -, -, -, rfl⟩ | ⟨-, i, hi, hc⟩
  · exact absurd hr hn
  · cases ht
  · cases ht
  · have hrun := hc.run
    split at hrun
    · next he => exact he ▸ hi
    · simp [ht, hr] at hrun

/-- A completed instruction of a running machine records no fault. -/
theorem Completes.not_faulted (h : Completes s i t) (hr : s.run = .running) (f : Fault) : t.run ≠ .faulted f := by
  rw [h.run, hr]
  split <;> simp

/-- A fetched instruction that is no jump advances `pc` by its length, without wrapping. -/
theorem Completes.pc_toNat (h : Completes s i t) (hi : fetchDecode s = .ok i)
    (hm : i.mnemonic ∉ [Mnemonic.jmp, .jeq, .jne]) :
    t.pc.toNat = s.pc.toNat + i.length ∧ t.pc.toNat ≤ 256 := by
  have hfit := fetched_fits hi
  rw [h.pc.resolve_right fun hj => hm hj.1, BitVec.toNat_ofNat]
  omega

theorem jump_pc_toNat (s : State) (r : Reg) : (s.jump (jumpTarget s r)).pc.toNat = (s.reg r).toNat :=
  jumpTarget_toNat s r

theorem advance_pc_toNat_of_fits {n : Nat} (h : s.pc.toNat + n ≤ 256) :
    (s.advance n).pc.toNat = s.pc.toNat + n ∧ (s.advance n).pc.toNat ≤ 256 := by
  have e := s.advance_pc_toNat n (by omega)
  exact ⟨e, e ▸ h⟩

end Table

/-- Settles O25: a completed instruction keeps Running unless it is HLT, and every other answer is a fault or `s`. -/
theorem runStateTransitions : Obligations.RunStateTransitions := by
  unfold Obligations.RunStateTransitions
  refine fun s t h => ⟨?_, fun hr => ⟨fetchDecode_hlt_of_halted h hr, ?_⟩, ?_⟩
  · intro hn
    rcases step_next_cases h with ⟨-, rfl⟩ | ⟨hr, -⟩ | ⟨hr, -⟩ | ⟨hr, -⟩
    · rfl
    all_goals exact absurd hr hn
  · intro hi
    exact (completes_of_step hr hi rfl h).run
  · intro hr f hf
    rcases step_next_cases h with ⟨hn, -⟩ | ⟨-, g, hg, rfl⟩ | ⟨-, i, v, hi, hw, hv, rfl⟩ | ⟨-, i, -, hc⟩
    · exact absurd hr hn
    · cases hf
      exact .inl hg
    · cases hf
      exact .inr ⟨i, v, hi, hw, hv, rfl⟩
    · exact absurd hf (hc.not_faulted hr f)

/-- Settles O26: the sequential rows by the length of the instruction, the jumps by their target. -/
theorem pcTable : Obligations.PcTable := by
  unfold Obligations.PcTable
  have len3 : ∀ m ∈ [Mnemonic.ldi, .mul, .cmp], 1 + m.arity = 3 ∧ m ∉ [Mnemonic.jmp, .jeq, .jne] := by decide
  have len2 : ∀ m ∈ [Mnemonic.prn, .push, .pop], 1 + m.arity = 2 ∧ m ∉ [Mnemonic.jmp, .jeq, .jne] := by decide
  refine fun s t hr h => ⟨?_, ?_, ?_, ?_, ?_, ?_, ?_⟩
  · intro i hi hw hm
    obtain ⟨hlen, hnj⟩ := len3 _ hm
    exact hlen ▸ (completes_of_step hr hi hw h).pc_toNat hi hnj
  · intro i hi hw hm
    obtain ⟨hlen, hnj⟩ := len2 _ hm
    exact hlen ▸ (completes_of_step hr hi hw h).pc_toNat hi hnj
  · intro r hi
    rw [(Completes.jmp r).eq_of_step hr hi h, jump_pc_toNat]
  · refine fun r hi => ⟨fun hfl => ?_, fun hfl => ?_⟩
    · rw [(Completes.jeqTaken r hfl).eq_of_step hr hi h, jump_pc_toNat]
    · rw [(Completes.jeqUntaken r hfl).eq_of_step hr hi h]
      exact advance_pc_toNat_of_fits (fetched_fits hi)
  · refine fun r hi => ⟨fun hfl => ?_, fun hfl => ?_⟩
    · rw [(Completes.jneTaken r hfl).eq_of_step hr hi h, jump_pc_toNat]
    · rw [(Completes.jneUntaken r hfl).eq_of_step hr hi h]
      exact advance_pc_toNat_of_fits (fetched_fits hi)
  · intro hi
    have hc := completes_of_step hr hi rfl h
    obtain ⟨hpc, hle⟩ := hc.pc_toNat hi (by decide)
    exact ⟨hpc, hle, hc.run⟩
  · intro f hf
    rcases step_completes_or_only_run h with ⟨-, i, -, hc⟩ | ⟨r, rfl⟩
    · exact absurd hf (hc.not_faulted hr f)
    · rfl

/-! ### Who writes registers, `FL` and `OUT`, and who reads `FL` and `OUT`. -/

/-- Settles O27: only a completed instruction writes registers, and `Completes.reg_writer` names which. -/
theorem registerWriters : Obligations.RegisterWriters := by
  unfold Obligations.RegisterWriters
  intro s t q h hq
  rcases step_completes_or_only_run h with ⟨hr, i, hi, hc⟩ | ⟨r, rfl⟩
  · refine ⟨hr, ?_⟩
    rw [hi]
    simpa only [Except.ok.injEq] using hc.reg_writer hq
  · exact absurd rfl hq

/-- Settles O28: a step that completes no instruction leaves `FL`, and `Completes.fl` is the rest. -/
theorem flagWriters : Obligations.FlagWriters := by
  unfold Obligations.FlagWriters
  intro s t h
  rcases step_completes_or_only_run h with ⟨hr, i, hi, hc⟩ | ⟨r, rfl⟩
  · exact hc.fl.imp_right fun ⟨⟨a, b, hcmp⟩, hval⟩ => ⟨hr, ⟨a, b, hcmp ▸ hi⟩, hval⟩
  · exact .inl rfl

/-- Settles O29: `exec_replace_fl_out` with the same `OUT`. -/
theorem flagReaders : Obligations.FlagReaders := by
  unfold Obligations.FlagReaders
  intro i s t v hjeq hjne h
  obtain ⟨v', o', hu, -, ho⟩ := exec_replace_fl_out h (v := v) s.out (.inr ⟨hjeq, hjne⟩)
  exact ⟨_, hu, rfl, rfl, rfl, rfl, ho rfl⟩

/-- No step depends on `OUT`: from another one, the answer differs in `OUT` alone. -/
theorem step_replace_out {s t : State} (h : step s = .next t) (o : List Byte) :
    ∃ o', step { s with out := o } = .next { t with out := o' } := by
  rcases step_cases s with ⟨hr, e⟩ | ⟨hr, f, hf, e⟩ | ⟨hr, i, hi, e⟩ <;> rw [e] at h
  · cases h
    exact ⟨o, step_of_stopped (s := { s with out := o }) hr⟩
  · cases h
    exact ⟨o, stepWith_of_error hr hf⟩
  · obtain ⟨v', o', hu, hv, -⟩ := exec_replace_fl_out h o (.inl rfl)
    refine ⟨o', (stepWith_of_ok (s := { s with out := o }) hr hi).trans ?_⟩
    rw [hu, hv rfl]

/-- Settles O31: the one writer by `Completes.out`, no reader by `step_replace_out`. -/
theorem outputChannel : Obligations.OutputChannel := by
  unfold Obligations.OutputChannel
  refine ⟨?_, ?_, ?_⟩
  · intro s r hr hi
    exact ⟨_, (step_of_fetchDecode hr hi).trans (execPrn_regByte r s), rfl⟩
  · intro s t h hno
    rcases step_completes_or_only_run h with ⟨hr, i, hi, hc⟩ | ⟨r, rfl⟩
    · exact hc.out.resolve_right fun ⟨r, hprn, _⟩ => hno.elim (· hr) fun hnot => hnot r (hprn ▸ hi)
    · rfl
  · intro s t o h
    obtain ⟨o', hu⟩ := step_replace_out h o
    exact ⟨_, hu, rfl, rfl, rfl, rfl, rfl⟩

/-! ### Reset and launch. -/

/-- The state a launch of `image` leaves, with the default `SP_RESET`. -/
def launched (image : List Byte) : State := { State.reset with mem := Memory.writeList [] 0 image }

/-- A launch that is not refused leaves `launched image`. -/
theorem launch_eq_next_iff {image : List Byte} {s : State} :
    launch image = .next s ↔ image.length ≤ 256 ∧ s = launched image := by
  unfold launch
  split
  · next h => simp [h, launched, State.reset, eq_comm]
  · next h => simp [h]

theorem launched_memRead (image : List Byte) (a : Byte) :
    (launched image).memRead a = image.getD a.toNat 0x00 := by
  have ha : 0 + a.toNat < Config.memSize := by simpa only [Nat.zero_add] using a.isLt
  have h := Memory.read_writeList (m := []) (bs := image) rfl ha
  simpa [launched, State.memRead, Memory.read, Config.unloadedByte] using h

theorem launched_inv (image : List Byte) : (launched image).Inv where
  mem_wf := Memory.writeList_wf rfl
  pc_le := Nat.zero_le _
  fl_one := .inl rfl
  fault_ok := rfl

theorem reset_reg_of_ne_sp : ∀ r : Reg, r ≠ 7 → State.reset.reg r = 0x00 := by decide

/-- Settles O37: every field of `launched image`, memory by the law of `writeList`. -/
theorem launchState : Obligations.LaunchState := by
  unfold Obligations.LaunchState
  refine ⟨fun image hlen => ⟨launched image, launch_eq_next_iff.mpr ⟨hlen, rfl⟩, ?_⟩, rfl⟩
  exact ⟨reset_reg_of_ne_sp, rfl, rfl, rfl, launched_memRead image, rfl, rfl⟩

/-- Settles O40: the reset state is the launch of the empty image. -/
theorem launchEstablishesInv : Obligations.LaunchEstablishesInv := by
  unfold Obligations.LaunchEstablishesInv
  refine ⟨launched_inv [], fun image s h => ?_⟩
  obtain ⟨-, rfl⟩ := launch_eq_next_iff.mp h
  exact launched_inv image

end Sys2Proof.Machine

/-! PROOFS. Memory: its canonical form, its one writer, and the fetch of a cell just written. -/

namespace Sys2Proof.Machine

/-! ### The canonical form. -/

section Canonical

variable {lo k k' a : Nat} {v v' : Byte} {m n : Memory}

theorem Memory.wfFrom_cons_iff : Memory.wfFrom lo ((k, v) :: m) = true ↔
    lo ≤ k ∧ k < 256 ∧ v ≠ Config.unloadedByte ∧ Memory.wfFrom (k + 1) m = true := by
  simp only [Memory.wfFrom, Bool.and_eq_true, decide_eq_true_eq, and_assoc]

theorem Memory.read_cons_head : Memory.read ((k, v) :: m) k = v :=
  if_pos rfl

theorem Memory.read_cons_tail (h : a ≠ k) : Memory.read ((k, v) :: m) a = Memory.read m a :=
  if_neg h

/-- A canonical memory differs at its first listed address from one that lists only higher addresses. -/
theorem Memory.read_head_ne_of_wfFrom_succ (hv : v ≠ Config.unloadedByte)
    (hn : Memory.wfFrom (k + 1) n = true) : Memory.read ((k, v) :: m) k ≠ Memory.read n k := by
  rwa [Memory.read_cons_head, Memory.read_of_lt hn k.lt_succ_self]

/-- Canonical memories that read the same list the same first address. -/
theorem Memory.head_addr_eq_of_read_eq (hm : Memory.wfFrom lo ((k, v) :: m) = true)
    (hn : Memory.wfFrom lo ((k', v') :: n) = true)
    (h : ∀ a < 256, Memory.read ((k, v) :: m) a = Memory.read ((k', v') :: n) a) : k = k' := by
  obtain ⟨-, hk, hv, -⟩ := Memory.wfFrom_cons_iff.mp hm
  obtain ⟨-, hk', hv', -⟩ := Memory.wfFrom_cons_iff.mp hn
  rcases Nat.lt_trichotomy k k' with hlt | he | hgt
  · have hn' := Memory.wfFrom_cons_iff.mpr ⟨hlt, (Memory.wfFrom_cons_iff.mp hn).2⟩
    exact absurd (h k hk) (Memory.read_head_ne_of_wfFrom_succ hv hn')
  · exact he
  · have hm' := Memory.wfFrom_cons_iff.mpr ⟨hgt, (Memory.wfFrom_cons_iff.mp hm).2⟩
    exact absurd (h k' hk').symm (Memory.read_head_ne_of_wfFrom_succ hv' hm')

/-- Canonical memories that read the same are the same list, from any lower bound. -/
theorem Memory.eq_of_read_eq (hm : Memory.wfFrom lo m = true) (hn : Memory.wfFrom lo n = true)
    (h : ∀ a < 256, Memory.read m a = Memory.read n a) : m = n := by
  induction m generalizing lo n with
  | nil =>
    cases n with
    | nil => rfl
    | cons c n =>
      obtain ⟨-, hk, hv, -⟩ := Memory.wfFrom_cons_iff.mp hn
      exact absurd (h c.1 hk).symm (Memory.read_head_ne_of_wfFrom_succ hv rfl)
  | cons c m ih =>
    obtain ⟨k, v⟩ := c
    obtain ⟨-, hk, hv, hmt⟩ := Memory.wfFrom_cons_iff.mp hm
    cases n with
    | nil => exact absurd (h k hk) (Memory.read_head_ne_of_wfFrom_succ hv rfl)
    | cons d n =>
      obtain ⟨k', v'⟩ := d
      obtain rfl : k = k' := Memory.head_addr_eq_of_read_eq hm hn h
      obtain ⟨-, -, -, hnt⟩ := Memory.wfFrom_cons_iff.mp hn
      obtain rfl : v = v' := by simpa only [Memory.read_cons_head] using h k hk
      have htail : ∀ a < 256, Memory.read m a = Memory.read n a := by
        intro a ha
        rcases Nat.lt_or_ge k a with hlt | hle
        · simpa only [Memory.read_cons_tail hlt.ne'] using h a ha
        · rw [Memory.read_of_lt hmt (Nat.lt_succ_of_le hle), Memory.read_of_lt hnt (Nat.lt_succ_of_le hle)]
      rw [ih hmt hnt htail]

end Canonical

/-- Settles O32: `Memory.eq_of_read_eq` from the lower bound 0. -/
theorem memoryExtensional : Obligations.MemoryExtensional := by
  unfold Obligations.MemoryExtensional
  intro m n hm hn h
  exact Memory.eq_of_read_eq hm hn h

/-! ### The one writer, and the fetch of the cell it wrote. -/

section Push

variable {s t : State} {r : Reg}

/-- PUSH leaves every cell but the one below the stack pointer (`20_memory.md` R30). -/
theorem pushReg_memRead_of_ne {a : Byte} (h : a ≠ pushAddress s) : (pushReg r s).memRead a = s.memRead a := by
  rw [State.memRead, pushReg_mem]
  exact Memory.read_write_of_ne fun e => h (BitVec.eq_of_toNat_eq e)

/-- The cell PUSH stores to holds the register as the decrement left it (`43_stack.md` R80). -/
theorem pushReg_memRead_pushAddress (hm : s.mem.wf = true) :
    (pushReg r s).memRead (pushAddress s) = if r = Config.sp then pushAddress s else s.reg r := by
  rw [State.memRead, pushReg_mem]
  exact Memory.read_write_self hm

/-- `20_memory.md` R31: a completed instruction that changes a cell is a PUSH that stored to it. -/
theorem Completes.mem_writer {i : Instr} (h : Completes s i t) {a : Byte} (ha : t.memRead a ≠ s.memRead a) :
    a = pushAddress s ∧ ∃ r, i = .push (regByte r) := by
  rcases h.mem with e | ⟨r, hi, e⟩
  · exact absurd (congrArg (Memory.read · a.toNat) e) ha
  · refine ⟨by_contra fun hne => ha ?_, r, hi⟩
    exact (congrArg (Memory.read · a.toNat) e).trans (pushReg_memRead_of_ne hne)

/-- A fetch within memory reads the cell it addresses, whatever wrote it (`20_memory.md` R41). -/
theorem State.fetchByte_eq_memRead {k : Nat} {a : Byte} (h : s.pc.toNat + k = a.toNat) :
    s.fetchByte k = some (s.memRead a) := by
  have ha : s.pc.toNat + k ≤ 255 := by
    rw [h]
    exact Nat.le_of_lt_succ a.isLt
  rw [State.fetchByte_of_le ha, h, State.memRead]

end Push

/-- Settles O30: a step that completes no instruction leaves memory, and `Completes.mem_writer` is the rest. -/
theorem memoryWriters : Obligations.MemoryWriters := by
  unfold Obligations.MemoryWriters
  intro s t a h ha
  rcases step_completes_or_only_run h with ⟨hr, i, hi, hc⟩ | ⟨r, rfl⟩
  · obtain ⟨rfl, r, rfl⟩ := hc.mem_writer ha
    exact ⟨hr, ⟨r, hi⟩, pushAddress_toNat s⟩
  · exact absurd rfl ha

/-- Settles O33: the fetch reads the cell, and the cell holds what PUSH stored. -/
theorem fetchSeesPush : Obligations.FetchSeesPush := by
  unfold Obligations.FetchSeesPush
  intro s t r k hm h hk
  obtain rfl := (Completes.push r).eq_of_exec h
  rw [State.fetchByte_eq_memRead hk, State.advance_memRead, pushReg_memRead_pushAddress hm]
  rfl

end Sys2Proof.Machine

/-! PROOFS. The encoding: the decoder and the encoder undo each other, and which bytes are opcodes. -/

namespace Sys2Proof

/-! ### The round trip, for every opcode map. -/

section RoundTrip

variable {opc : OpcodeMap} {i : Instr}

/-- The encoding of a row's instruction: the row's byte and as many operand bytes as the row has
(`30_encoding.md` R43 to R45). -/
theorem encodeWith_withOperands (opc : OpcodeMap) (m : Mnemonic) (a b : Byte) :
    encodeWith opc (m.withOperands a b) = opc m :: [a, b].take m.arity := by
  cases m <;> rfl

/-- Operand fetch reads an instruction from a source that begins with that instruction's bytes. -/
theorem byteAt_of_decodeOperands {m : Mnemonic} {byteAt : Nat → Option Byte} (h0 : byteAt 0 = some (opc m))
    (h : decodeOperands m byteAt = .ok i) (k : Nat) (hk : k < (encodeWith opc i).length) :
    byteAt k = some (encodeWith opc i)[k] := by
  rcases decodeOperands_cases m byteAt with
    ⟨hm, e⟩ | ⟨-, -, e⟩ | ⟨a, hm, h1, e⟩ | ⟨a, -, -, -, e⟩ | ⟨a, b, hm, h1, h2, e⟩ <;>
    cases e.symm.trans h <;>
    simp only [encodeWith_withOperands, hm, List.take_zero, List.take_succ_cons, List.length_cons,
      List.length_nil] at hk ⊢
  · obtain rfl : k = 0 := by omega
    exact h0
  · obtain rfl | rfl : k = 0 ∨ k = 1 := by omega
    exacts [h0, h1]
  · obtain rfl | rfl | rfl : k = 0 ∨ k = 1 ∨ k = 2 := by omega
    exacts [h0, h1, h2]

/-- The converse of `decodeFrom_of_encodeWith`, which needs no distinct map: whatever the decoder reads, the source
begins with its bytes (`30_encoding.md` R49, R54). -/
theorem byteAt_of_decodeFrom {byteAt : Nat → Option Byte} (h : decodeFrom opc byteAt = .ok i) (k : Nat)
    (hk : k < (encodeWith opc i).length) : byteAt k = some (encodeWith opc i)[k] := by
  rcases decodeFrom_cases opc byteAt with ⟨-, e⟩ | ⟨op, h0, ⟨-, e⟩ | ⟨m, hm, e⟩⟩
  · cases e.symm.trans h
  · cases e.symm.trans h
  · obtain rfl := decodeOpcode_sound hm
    exact byteAt_of_decodeOperands h0 (e.symm.trans h) k hk

theorem decodeWith_of_encodeWith_prefix (hd : opc.Distinct) {bytes : List Byte}
    (h : encodeWith opc i <+: bytes) : decodeWith opc bytes = .ok i :=
  decodeFrom_of_encodeWith hd (List.prefix_iff_getElem?.mp h)

theorem encodeWith_prefix_of_decodeWith {bytes : List Byte} (h : decodeWith opc bytes = .ok i) :
    encodeWith opc i <+: bytes :=
  List.prefix_iff_getElem?.mpr (byteAt_of_decodeFrom h)

end RoundTrip

/-- Settles O13: an encoding is a prefix of itself with any bytes after it. -/
theorem decodeOfEncode : Obligations.DecodeOfEncode := by
  unfold Obligations.DecodeOfEncode
  intro opc hd i rest
  exact decodeWith_of_encodeWith_prefix hd (List.prefix_append _ rest)

/-- Settles O14: the bytes after the prefix are the rest. -/
theorem encodeOfDecode : Obligations.EncodeOfDecode := by
  unfold Obligations.EncodeOfDecode
  intro opc bytes i h
  obtain ⟨rest, he⟩ := encodeWith_prefix_of_decodeWith h
  exact ⟨rest, he.symm⟩

/-! ### The default opcode map. -/

/-- The ten values of the default map (`30_encoding.md` R47). -/
theorem opcodes_mem (m : Mnemonic) :
    opcodes m ∈ ([0x82, 0x47, 0xA2, 0xA7, 0x45, 0x46, 0x54, 0x55, 0x56, 0x01] : List Byte) := by
  cases m <;> decide

/-- Every default byte finds its own row, so no two rows share one. -/
theorem decodeOpcode_opcodes (m : Mnemonic) : decodeOpcode opcodes (opcodes m) = some m := by
  cases m <;> rfl

theorem opcodes_distinct : opcodes.Distinct := by
  intro m n h
  apply Option.some.inj
  rw [← decodeOpcode_opcodes m, h, decodeOpcode_opcodes n]

/-- The two high bits of a default opcode byte are its row's operand count (`30_encoding.md` R48). -/
theorem opcodes_div_64 (m : Mnemonic) : (opcodes m).toNat / 64 = m.arity := by
  cases m <;> rfl

/-- Settles O15: distinct because every byte finds its own row; the operand counts row by row. -/
theorem defaultOpcodes : Obligations.DefaultOpcodes := by
  unfold Obligations.DefaultOpcodes
  exact ⟨opcodes_distinct, opcodes_div_64⟩

theorem decode_encode (i : Instr) : decode (encode i) = .ok i :=
  decodeWith_of_encodeWith_prefix opcodes_distinct List.prefix_rfl

/-- A list that begins with none of the map's values is illegal, whatever follows (`30_encoding.md` R50). -/
theorem decodeWith_of_illegal_opcode {opc : OpcodeMap} {op : Byte} (hop : ∀ m, opc m ≠ op) (rest : List Byte) :
    decodeWith opc (op :: rest) = .error (.illegalOpcode op) :=
  decodeFrom_of_illegal_opcode rfl hop

theorem opcodes_ne_0xA0 (m : Mnemonic) : opcodes m ≠ 0xA0 := by
  cases m <;> decide

/-- Settles O16: the first five words are encodings, and the sixth begins with no opcode byte. -/
theorem encodedWords : Obligations.EncodedWords := by
  unfold Obligations.EncodedWords
  exact ⟨decode_encode (.ldi 3 255), decode_encode (.mul 2 5), decode_encode (.push 7), decode_encode (.jeq 4),
    decode_encode .hlt, decodeWith_of_illegal_opcode opcodes_ne_0xA0 _⟩

/-! ### How many bytes are opcodes. -/

/-- The byte values that find a row are the map's ten values, each once (`30_encoding.md` R49). -/
theorem legal_bytes_perm_map_all {opc : OpcodeMap} (hd : opc.Distinct) :
    ((List.range 256).filter fun n => (decodeOpcode opc (BitVec.ofNat 8 n)).isSome).Perm
      (Mnemonic.all.map fun m => (opc m).toNat) := by
  have hall : Mnemonic.all.Nodup := by decide
  have hinj : Function.Injective fun m => (opc m).toNat := fun m n h => hd m n (BitVec.eq_of_toNat_eq h)
  refine (List.perm_ext_iff_of_nodup (List.nodup_range.filter _) (hall.map hinj)).mpr fun n => ?_
  rw [List.mem_filter, List.mem_range, List.mem_map]
  constructor
  · rintro ⟨hn, h⟩
    obtain ⟨m, hm⟩ := Option.isSome_iff_exists.mp h
    refine ⟨m, Mnemonic.mem_all m, ?_⟩
    rw [decodeOpcode_sound hm, BitVec.toNat_ofNat, Nat.mod_eq_of_lt hn]
  · rintro ⟨m, -, rfl⟩
    refine ⟨(opc m).isLt, ?_⟩
    rw [BitVec.ofNat_toNat, BitVec.setWidth_eq, decodeOpcode_complete hd]
    rfl

/-- Of the 256 byte values all but ten find no row, whatever the distinct map (`30_encoding.md` R50). -/
theorem illegal_bytes_length {opc : OpcodeMap} (hd : opc.Distinct) :
    ((List.range 256).filter fun n => (decodeOpcode opc (BitVec.ofNat 8 n)).isNone).length = 246 := by
  have hlegal := (legal_bytes_perm_map_all hd).length_eq
  have hsplit := List.length_eq_length_filter_add
    (l := List.range 256) fun n => (decodeOpcode opc (BitVec.ofNat 8 n)).isSome
  simp only [Option.not_isSome] at hsplit
  rw [hlegal, List.length_map, List.length_range] at hsplit
  have hten : Mnemonic.all.length = 10 := rfl
  omega

end Sys2Proof

namespace Sys2Proof.Machine

/-- Settles O20: `stepWith_of_illegal_opcode` at the default map, and the count of the bytes it applies to. -/
theorem illegalOpcodeFaults : Obligations.IllegalOpcodeFaults := by
  unfold Obligations.IllegalOpcodeFaults
  refine ⟨?_, illegal_bytes_length opcodes_distinct⟩
  rintro s op hr hpc rfl hop
  have hne : ∀ m, opcodes m ≠ Memory.read s.mem s.pc.toNat := fun m e => hop (e ▸ opcodes_mem m)
  exact stepWith_of_illegal_opcode hr hpc hne

end Sys2Proof.Machine

/-! PROOFS. The engine's cycle: a step always answers a state, adds nothing around `exec`, and a HLT ends it. -/

namespace Sys2Proof.Machine

/-- The execute phase always answers a state: a well-formed instruction completes, any other takes IllegalOperand. -/
theorem exec_answers_next (i : Instr) (s : State) : ∃ t, exec i s = .next t := by
  cases hw : i.wf with
  | true =>
    obtain ⟨t, hc⟩ := exists_completes s hw
    exact ⟨t, hc.exec_eq⟩
  | false =>
    obtain ⟨v, -, he⟩ := exec_of_not_wf hw
    exact ⟨_, he s⟩

/-- Settles O18: a stopped engine stays, a fault of fetch or decode is taken, and `exec` always answers a state. -/
theorem stepAnswersNext : Obligations.StepAnswersNext := by
  unfold Obligations.StepAnswersNext
  intro s
  rcases step_cases s with ⟨-, e⟩ | ⟨-, f, -, e⟩ | ⟨-, i, -, e⟩
  · exact ⟨s, e⟩
  · exact ⟨s.raise f, e⟩
  · rw [e]
    exact exec_answers_next i s

/-- Settles O17: the lemmas about `stepWith`, by encoded bytes and by decoding, at the default opcode map. -/
theorem stepRunsDecoded : Obligations.StepRunsDecoded := by
  unfold Obligations.StepRunsDecoded
  constructor
  · intro s i hr hfit hb
    exact stepWith_of_encodeWith opcodes_distinct hr hfit hb
  · intro s i hr hd
    exact stepWith_of_decodeFrom_ok hr hd

/-- A stopped engine has no step (`40_engine_cycle.md` R58). -/
theorem not_engineStep_of_stopped {s : State} (hr : s.run ≠ .running) (t : State) : ¬ EngineStep s t :=
  fun ⟨hrun, _⟩ => hr hrun

/-- Settles O22: the completion of HLT is a halted state, and a halted engine has no step. -/
theorem haltDeterminism : Obligations.HaltDeterminism := by
  unfold Obligations.HaltDeterminism
  intro s hr hi
  have hstep : step s = .next (s.advance 1).halt :=
    (step_of_fetchDecode hr hi).trans Completes.hlt.exec_eq
  exact ⟨_, hstep, State.halt_run _, not_engineStep_of_stopped (by simp)⟩

end Sys2Proof.Machine

/-! PROOFS. A row of the table at `pc`: the step that runs it and the faults it takes. Then LDI and PRN. -/

namespace Sys2Proof.Machine

section Row

variable {opc : OpcodeMap} {s : State} {m : Mnemonic} {a : Byte}

/-- A running machine whose row fits below address 256 executes that row with the bytes after the opcode
(`40_engine_cycle.md` R58, R61). -/
theorem stepWith_of_opcode (hd : opc.Distinct) (hr : s.run = .running) (hop : Memory.read s.mem s.pc.toNat = opc m)
    (hfit : s.pc.toNat + m.arity ≤ 255) :
    stepWith opc s =
      exec (m.withOperands (Memory.read s.mem (s.pc.toNat + 1)) (Memory.read s.mem (s.pc.toNat + 2))) s := by
  have harity : m.arity ≤ 2 := by cases m <;> decide
  apply stepWith_of_encodeWith hd hr <;>
    simp only [encodeWith_withOperands, List.length_cons, List.length_take, List.length_nil]
  · omega
  · intro k hk
    match k with
    | 0 => exact hop
    | 1 | 2 => simp
    | k + 3 => omega

/-- An invalid first operand is rejected by every row that has an operand, in every state (`30_encoding.md` R52). -/
theorem exec_of_invalid_operand_a (hm : 1 ≤ m.arity) (ha : 7 < a.toNat) (b : Byte) :
    exec (m.withOperands a b) s = .next (s.raise (.illegalOperand s.opcodeByte s.pc a)) := by
  cases m with
  | hlt => exact absurd hm (by decide)
  | ldi | prn | mul | cmp | push | pop | jmp | jeq | jne => exact withReg_invalid s _ ha

/-- A running machine whose row fits and has an invalid first operand records the row's own byte and that operand. -/
theorem step_of_invalid_operand_a (hr : s.run = .running) (hop : Memory.read s.mem s.pc.toNat = opcodes m)
    (hm : 1 ≤ m.arity) (hfit : s.pc.toNat + m.arity ≤ 255) (hv : Memory.read s.mem (s.pc.toNat + 1) = a)
    (ha : 7 < a.toNat) : step s = .next (s.raise (.illegalOperand (opcodes m) s.pc a)) := by
  rw [step, stepWith_of_opcode opcodes_distinct hr hop hfit, hv, exec_of_invalid_operand_a hm ha, State.opcodeByte, hop]

end Row

/-- A write to one register leaves every other alone, and so does the sequential advance. -/
theorem sameRegsBut_setReg_advance (s : State) (r : Reg) (v : Byte) (n : Nat) :
    SameRegsBut [r] s ((s.setReg r v).advance n) := fun q hq =>
  s.setReg_reg_of_ne r q v (by simpa using hq)

/-- A PRN of the register that an LDI wrote emits the literal (`41_load_print.md` R69). -/
theorem prn_emits_ldi_literal {s t : State} {r : Reg} {b : Byte} (h : exec (.ldi (regByte r) b) s = .next t) :
    ∃ u, exec (.prn (regByte r)) t = .next u ∧ u.out = s.out ++ [b] := by
  obtain rfl := (Completes.ldi r b).eq_of_exec h
  exact ⟨_, (Completes.prn r).exec_eq, by simp⟩

/-- Settles O1: the completion of LDI field by field, its faults by the lemmas about a row at `pc`. -/
theorem ldiRule : Obligations.LdiRule := by
  unfold Obligations.LdiRule
  refine ⟨fun _ _ => rfl, ?_, ?_, ?_, ?_, ?_⟩
  · intro s r b
    have hpc : s.pc.toNat ≤ 256 → ((s.setReg r b).advance 3).pc.toNat = s.pc.toNat + 3 := fun h =>
      (s.setReg r b).advance_pc_toNat 3 (by rw [State.setReg_pc]; omega)
    have hframe := sameRegsBut_setReg_advance s r b 3
    exact ⟨_, (Completes.ldi r b).exec_eq, by simp, hframe, rfl, fun _ => rfl, rfl, rfl, hpc⟩
  · intro s v b hv
    exact exec_of_invalid_operand_a (m := .ldi) (by decide) hv b
  · intro s v hr hpc hop hv hinv
    exact step_of_invalid_operand_a (m := .ldi) hr hop (by decide) (Nat.add_le_add_right hpc 2) hv hinv
  · intro s hr hop hpc
    have htrunc : 255 < s.pc.toNat + 2 := by omega
    exact stepWith_of_truncated (m := .ldi) opcodes_distinct hr (by omega) hop htrunc
  · intro s t r b h
    exact prn_emits_ldi_literal h

/-- Settles O2: the completion of PRN field by field, its faults by the lemmas about a row at `pc`. -/
theorem prnRule : Obligations.PrnRule := by
  unfold Obligations.PrnRule
  refine ⟨fun _ => rfl, ?_, ?_, ?_, ?_⟩
  · intro s r
    have hpc : s.pc.toNat ≤ 256 → ((s.emit (s.reg r)).advance 2).pc.toNat = s.pc.toNat + 2 := fun h =>
      (s.emit (s.reg r)).advance_pc_toNat 2 (by rw [State.emit_pc]; omega)
    exact ⟨_, (Completes.prn r).exec_eq, rfl, fun _ _ => rfl, rfl, fun _ => rfl, rfl, hpc⟩
  · intro s v hv
    exact exec_of_invalid_operand_a (m := .prn) (by decide) hv 0
  · intro s v hr hpc hop hv hinv
    exact step_of_invalid_operand_a (m := .prn) hr hop (by decide) (Nat.add_le_add_right hpc 1) hv hinv
  · intro s hr hop hpc
    have htrunc : 255 < s.pc.toNat + 1 := by omega
    exact stepWith_of_truncated (m := .prn) opcodes_distinct hr (by omega) hop htrunc

end Sys2Proof.Machine

/-! PROOFS. The ALU taken alone, and MUL and CMP: result and frame, and the faults of a row with two registers. -/

namespace Sys2Proof.Machine

/-! ### The ALU taken alone. -/

section NamedAlu

variable {operation : String}

/-- A name of the closed set runs its operation (`42_alu.md` R71). -/
theorem aluExecuteNamed_of_some {op : AluOp} (h : aluOpOfName operation = some op) (a b : Reg) (s : State) :
    aluExecuteNamed operation a b s = .next (aluExecute op a b s) := by
  rw [aluExecuteNamed, h]

/-- A name outside the closed set is a fault (`42_alu.md` R75). -/
theorem aluExecuteNamed_of_none (h : aluOpOfName operation = none) (a b : Reg) (s : State) :
    aluExecuteNamed operation a b s = .next (s.raise (.unsupportedOperation operation)) := by
  rw [aluExecuteNamed, h, faulting]

theorem aluOpOfName_eq_none (hadd : operation ≠ "ADD") (hmul : operation ≠ "MUL") (hcmp : operation ≠ "CMP") :
    aluOpOfName operation = none := by
  rw [aluOpOfName, if_neg hadd, if_neg hmul, if_neg hcmp]

end NamedAlu

theorem trunc8_add_toNat (x y : Byte) : (trunc8 (x.toNat + y.toNat)).toNat = (x.toNat + y.toNat) % 256 := by
  rw [← Int.natCast_add, trunc8_toNat_of_nat]

theorem trunc8_mul_toNat (x y : Byte) : (trunc8 (x.toNat * y.toNat)).toNat = (x.toNat * y.toNat) % 256 := by
  rw [← Int.natCast_mul, trunc8_toNat_of_nat]

theorem sameRegsBut_setReg (s : State) (r : Reg) (v : Byte) : SameRegsBut [r] s (s.setReg r v) := fun q hq =>
  s.setReg_reg_of_ne r q v (by simpa using hq)

/-- Settles O11: the name ADD selects the operation, and that is one register write. -/
theorem aluAddOperation : Obligations.AluAddOperation := by
  unfold Obligations.AluAddOperation
  intro s a b
  have hadd : aluOpOfName "ADD" = some .add := rfl
  have hsum : ((aluExecute .add a b s).reg a).toNat = ((s.reg a).toNat + (s.reg b).toNat) % 256 := by
    rw [aluExecute, State.setReg_reg_self, trunc8_add_toNat]
  exact ⟨_, aluExecuteNamed_of_some hadd a b s, hsum, sameRegsBut_setReg s a _, rfl, rfl, fun _ => rfl, rfl, rfl⟩

/-- Settles O12: the three names are the whole closed set. -/
theorem aluUnsupportedOperation : Obligations.AluUnsupportedOperation := by
  unfold Obligations.AluUnsupportedOperation
  intro s a b operation hadd hmul hcmp
  exact aluExecuteNamed_of_none (aluOpOfName_eq_none hadd hmul hcmp) a b s

/-! ### The second operand of a row with two registers. -/

section TwoRegisters

variable {s : State} {m : Mnemonic} {r : Reg} {b : Byte}

/-- An invalid second operand is rejected where the first is a register, in every state (`30_encoding.md` R52). -/
theorem exec_of_invalid_operand_b (hm : m.format = .rr) (hb : 7 < b.toNat) :
    exec (m.withOperands (regByte r) b) s = .next (s.raise (.illegalOperand s.opcodeByte s.pc b)) := by
  cases m with
  | mul | cmp => exact (withReg_regByte r s _).trans (withReg_invalid s _ hb)
  | ldi | prn | push | pop | jmp | jeq | jne | hlt => exact absurd hm (by decide)

/-- A running machine whose row fits and has only its second operand invalid records the row's own byte and that
operand. -/
theorem step_of_invalid_operand_b (hr : s.run = .running) (hop : Memory.read s.mem s.pc.toNat = opcodes m)
    (hm : m.format = .rr) (hfit : s.pc.toNat + m.arity ≤ 255) (ha : Memory.read s.mem (s.pc.toNat + 1) = regByte r)
    (hv : Memory.read s.mem (s.pc.toNat + 2) = b) (hb : 7 < b.toNat) :
    step s = .next (s.raise (.illegalOperand (opcodes m) s.pc b)) := by
  rw [step, stepWith_of_opcode opcodes_distinct hr hop hfit, ha, hv, exec_of_invalid_operand_b hm hb,
    State.opcodeByte, hop]

/-- The faults of a row with two registers: the first operand is validated before the second, and each of its three
bytes must lie below address 256 (`30_encoding.md` R52; `20_memory.md` R33). -/
theorem faults_of_two_registers (hm : m.format = .rr) :
    (∀ (s : State) (v b : Byte), 7 < v.toNat →
      exec (m.withOperands v b) s = .next (s.raise (.illegalOperand s.opcodeByte s.pc v))) ∧
    (∀ (s : State) (r : Reg) (v : Byte), 7 < v.toNat →
      exec (m.withOperands (regByte r) v) s = .next (s.raise (.illegalOperand s.opcodeByte s.pc v))) ∧
    (∀ (s : State) (v : Byte), s.run = .running → s.pc.toNat ≤ 253 →
      Memory.read s.mem s.pc.toNat = opcodes m → Memory.read s.mem (s.pc.toNat + 1) = v → 7 < v.toNat →
      step s = .next (s.raise (.illegalOperand (opcodes m) s.pc v))) ∧
    (∀ (s : State) (r : Reg) (v : Byte), s.run = .running → s.pc.toNat ≤ 253 →
      Memory.read s.mem s.pc.toNat = opcodes m → Memory.read s.mem (s.pc.toNat + 1) = regByte r →
      Memory.read s.mem (s.pc.toNat + 2) = v → 7 < v.toNat →
      step s = .next (s.raise (.illegalOperand (opcodes m) s.pc v))) ∧
    (∀ s : State, s.run = .running → Memory.read s.mem s.pc.toNat = opcodes m →
      (s.pc.toNat = 254 ∨ s.pc.toNat = 255) → step s = .next (s.raise (.addressRange 256))) := by
  have harity : m.arity = 2 := by rw [Mnemonic.arity, hm, Format.arity]
  refine ⟨?_, ?_, ?_, ?_, ?_⟩
  · intro s v b hv
    exact exec_of_invalid_operand_a (by omega) hv b
  · intro s r v hv
    exact exec_of_invalid_operand_b hm hv
  · intro s v hr hpc hop hv hinv
    exact step_of_invalid_operand_a hr hop (by omega) (by omega) hv hinv
  · intro s r v hr hpc hop ha hv hinv
    exact step_of_invalid_operand_b hr hop hm (by omega) ha hv hinv
  · intro s hr hop hpc
    exact stepWith_of_truncated opcodes_distinct hr (by omega) hop (by omega)

end TwoRegisters

/-! ### MUL and CMP. -/

/-- Settles O3: the completion of MUL field by field, its faults by the lemma about a row with two registers. -/
theorem mulRule : Obligations.MulRule := by
  unfold Obligations.MulRule
  refine ⟨fun _ _ => rfl, ?_, faults_of_two_registers (m := .mul) rfl⟩
  intro s r q
  refine ⟨_, (Completes.mul r q).exec_eq, ?_, sameRegsBut_setReg_advance s r _ 3, rfl, fun _ => rfl, rfl, rfl, ?_⟩
  · rw [State.advance_reg, State.setReg_reg_self, trunc8_mul_toNat]
  · intro hpc
    exact State.advance_pc_toNat _ 3 (by rw [State.setReg_pc]; omega)

section CompareFlags

variable {x y : Byte}

theorem compareFlags_of_eq (h : x.toNat = y.toNat) : compareFlags x y = 0x01 :=
  if_pos h

theorem compareFlags_of_gt (h : x.toNat > y.toNat) : compareFlags x y = 0x02 :=
  (if_neg h.ne').trans (if_pos h)

theorem compareFlags_of_lt (h : x.toNat < y.toNat) : compareFlags x y = 0x04 :=
  (if_neg h.ne).trans (if_neg h.not_gt)

end CompareFlags

/-- Settles O4: the completion of CMP field by field, its faults by the lemma about a row with two registers. -/
theorem cmpRule : Obligations.CmpRule := by
  unfold Obligations.CmpRule
  refine ⟨fun _ _ => rfl, ?_, faults_of_two_registers (m := .cmp) rfl⟩
  intro s r q
  refine ⟨_, (Completes.cmp r q).exec_eq, compareFlags_of_eq, compareFlags_of_gt, compareFlags_of_lt,
    fun _ _ => rfl, fun _ => rfl, rfl, rfl, ?_⟩
  intro hpc
  exact State.advance_pc_toNat _ 3 (by rw [State.setFl_pc]; omega)

end Sys2Proof.Machine

/-! PROOFS. PUSH and POP: result and frame, the faults of a row with one register, and the stack discipline. -/

namespace Sys2Proof.Machine

/-! ### What PUSH and POP leave in each register and in `pc`. -/

section StackRegisters

variable (s : State) (r : Reg) {q : Reg}

@[simp] theorem pushReg_pc : (pushReg r s).pc = s.pc := rfl

@[simp] theorem popReg_pc : (popReg r s).pc = s.pc := rfl

theorem pushReg_reg_sp : (pushReg r s).reg Config.sp = pushAddress s := by
  rw [pushReg_reg, if_pos rfl]

theorem pushReg_reg_of_ne (hq : q ≠ Config.sp) : (pushReg r s).reg q = s.reg q := by
  rw [pushReg_reg, if_neg hq]

variable {r}

/-- POP of a register other than the stack pointer increments the pointer it loaded from (`43_stack.md` R81). -/
theorem popReg_reg_sp (hr : r ≠ Config.sp) : (popReg r s).reg Config.sp = s.reg Config.sp + 1 := by
  rw [popReg_reg, if_pos rfl, if_neg hr]

/-- POP of the stack pointer increments the loaded byte, by the order of D13. -/
theorem popReg_sp_reg_sp : (popReg Config.sp s).reg Config.sp = s.memRead (s.reg Config.sp) + 1 := by
  rw [popReg_reg, if_pos rfl, if_pos rfl]

theorem popReg_reg_self (hr : r ≠ Config.sp) : (popReg r s).reg r = s.memRead (s.reg Config.sp) := by
  rw [popReg_reg, if_neg hr, if_pos rfl]

theorem popReg_reg_of_ne (hq : q ≠ Config.sp) (hqr : q ≠ r) : (popReg r s).reg q = s.reg q := by
  rw [popReg_reg, if_neg hq, if_neg hqr]

end StackRegisters

/-! ### The rules of PUSH and POP. -/

/-- The faults of a row with one operand, a register: each of its two bytes must lie below address 256, then the
operand is validated (`30_encoding.md` R52; `20_memory.md` R33). -/
theorem faults_of_one_register {m : Mnemonic} (hm : m.arity = 1) :
    (∀ (s : State) (v : Byte), 7 < v.toNat →
      exec (m.withOperands v 0) s = .next (s.raise (.illegalOperand s.opcodeByte s.pc v))) ∧
    (∀ (s : State) (v : Byte), s.run = .running → s.pc.toNat ≤ 254 →
      Memory.read s.mem s.pc.toNat = opcodes m → Memory.read s.mem (s.pc.toNat + 1) = v → 7 < v.toNat →
      step s = .next (s.raise (.illegalOperand (opcodes m) s.pc v))) ∧
    (∀ s : State, s.run = .running → Memory.read s.mem s.pc.toNat = opcodes m → s.pc.toNat = 255 →
      step s = .next (s.raise (.addressRange 256))) := by
  refine ⟨?_, ?_, ?_⟩
  · intro s v hv
    exact exec_of_invalid_operand_a hm.ge hv 0
  · intro s v hr hpc hop hv hinv
    exact step_of_invalid_operand_a hr hop hm.ge (by omega) hv hinv
  · intro s hr hop hpc
    exact stepWith_of_truncated opcodes_distinct hr hpc.le hop (by omega)

/-- Settles O5: the completion of PUSH field by field, its faults by the lemma about a row with one register. -/
theorem pushRule : Obligations.PushRule := by
  unfold Obligations.PushRule
  refine ⟨fun _ => rfl, ?_, faults_of_one_register (m := .push) rfl⟩
  intro s r hm
  have hframe : SameRegsBut [7] s ((pushReg r s).advance 2) := fun q hq =>
    pushReg_reg_of_ne s r (List.ne_of_not_mem_cons hq)
  refine ⟨_, (Completes.push r).exec_eq, pushAddress_toNat s, pushReg_reg_sp s r, hframe,
    pushReg_memRead_pushAddress hm, fun _ => pushReg_memRead_of_ne, rfl, rfl, rfl, ?_⟩
  intro hpc
  exact State.advance_pc_toNat _ 2 (by rw [pushReg_pc]; omega)

/-- Settles O6: the completion of POP field by field, its faults by the lemma about a row with one register. -/
theorem popRule : Obligations.PopRule := by
  unfold Obligations.PopRule
  refine ⟨fun _ => rfl, ?_, faults_of_one_register (m := .pop) rfl⟩
  intro s r
  have hother : r ≠ 7 → ((popReg r s).reg 7).toNat = ((s.reg 7).toNat + 1) % 256 := fun hr =>
    (congrArg BitVec.toNat (popReg_reg_sp s hr)).trans (BitVec.toNat_add _ 1)
  have hsp : r = 7 → ((popReg r s).reg 7).toNat = ((s.memRead (s.reg 7)).toNat + 1) % 256 := by
    rintro rfl
    exact (congrArg BitVec.toNat (popReg_sp_reg_sp s)).trans (BitVec.toNat_add _ 1)
  have hframe : SameRegsBut [r, 7] s ((popReg r s).advance 2) := fun q hq => by
    simp only [List.mem_cons, List.not_mem_nil, or_false, not_or] at hq
    exact popReg_reg_of_ne s hq.2 hq.1
  refine ⟨_, (Completes.pop r).exec_eq, fun hr => ⟨popReg_reg_self s hr, hother hr⟩, hsp, hframe,
    fun _ => rfl, rfl, rfl, rfl, ?_⟩
  intro hpc
  exact State.advance_pc_toNat _ 2 (by rw [popReg_pc]; omega)

/-! ### Execute phases one after another. -/

section ExecAll

variable {s t : State} {i : Instr}

theorem execAll_cons_of_next (h : exec i s = .next t) (is : List Instr) : execAll (i :: is) s = execAll is t := by
  rw [execAll, h]

theorem execAll_append_of_next {is : List Instr} (h : execAll is s = .next t) (js : List Instr) :
    execAll (is ++ js) s = execAll js t := by
  induction is generalizing s with
  | nil =>
    obtain rfl : s = t := by simpa [execAll] using h
    rfl
  | cons i is ih =>
    obtain ⟨u, hu⟩ := exec_answers_next i s
    rw [execAll_cons_of_next hu] at h
    rw [List.cons_append, execAll_cons_of_next hu, ih h]

end ExecAll

/-! ### The stack discipline. -/

section StackDiscipline

variable {s u : State} {r q : Reg}

/-- A POP in a state with the registers that a PUSH left, while the pushed cell still holds the pushed value, moves
that value to its destination and undoes the decrement (`43_stack.md` R79, R81). -/
theorem popReg_reg_of_pushed (hq : q ≠ Config.sp) (hregs : ∀ p, u.reg p = (pushReg r s).reg p)
    (hcell : u.memRead (pushAddress s) = s.reg r) (p : Reg) :
    (popReg q u).reg p = if p = q then s.reg r else s.reg p := by
  have hsp : u.reg Config.sp = pushAddress s := (hregs _).trans (pushReg_reg_sp s r)
  split
  · next hpq => rw [hpq, popReg_reg_self u hq, hsp, hcell]
  · next hpq =>
    by_cases hp : p = Config.sp
    · rw [hp, popReg_reg_sp u hq, hsp, pushAddress_eq, BitVec.sub_add_cancel]
    · rw [popReg_reg_of_ne u hp hpq, hregs, pushReg_reg_of_ne s r hp]

/-- How far a cell lies above the stack pointer, counted upward modulo 256. -/
def stackHeight (s : State) (a : Byte) : Nat := (a - s.reg Config.sp).toNat

/-- The cell a PUSH stores to is the last one counted upward from the old stack pointer. -/
theorem stackHeight_pushAddress : stackHeight s (pushAddress s) = 255 := by
  rw [stackHeight, pushAddress_eq]
  bv_omega

/-- A PUSH raises every cell by one place over the stack pointer, and the cell it stores to comes out lowest. -/
theorem stackHeight_pushReg (a : Byte) : stackHeight (pushReg r s) a = (stackHeight s a + 1) % 256 := by
  rw [stackHeight, stackHeight, pushReg_reg_sp, pushAddress_eq]
  bv_omega

/-- What a balanced use of the stack, at most `depth` deep, keeps from `s` to `t`: all registers, and every cell but
the `depth` ones below the stack pointer. -/
structure StackBalanced (depth : Nat) (s t : State) : Prop where
  reg : ∀ q, t.reg q = s.reg q
  memRead : ∀ a, stackHeight s a + depth < 256 → t.memRead a = s.memRead a

/-- Between a PUSH and the POP of the same register, a balanced use of the stack one level less deep leaves the whole
balanced: it reaches neither the pushed cell nor those above it. -/
theorem StackBalanced.push_pop {n : Nat} (hm : s.mem.wf = true) (hr : r ≠ Config.sp) (hn : n < 256)
    (h : StackBalanced n (pushReg r s) u) : StackBalanced (n + 1) s (popReg r u) where
  reg p := by
    have hlow : stackHeight (pushReg r s) (pushAddress s) = 0 := by
      rw [stackHeight_pushReg, stackHeight_pushAddress]
    have hcell : u.memRead (pushAddress s) = s.reg r := by
      rw [h.memRead _ (by omega), pushReg_memRead_pushAddress hm, if_neg hr]
    rw [popReg_reg_of_pushed hr h.reg hcell]
    exact ite_eq_right_iff.mpr fun hp => hp ▸ rfl
  memRead a ha := by
    have hne : a ≠ pushAddress s := by
      rintro rfl
      rw [stackHeight_pushAddress] at ha
      omega
    calc (popReg r u).memRead a
      _ = u.memRead a := rfl
      _ = (pushReg r s).memRead a := h.memRead a (by rw [stackHeight_pushReg]; omega)
      _ = s.memRead a := pushReg_memRead_of_ne hne

end StackDiscipline

/-- Pushes of some registers, then the pops in reverse order. -/
def pushesThenPops (rs : List Reg) : List Instr :=
  rs.map (fun r => .push (regByte r)) ++ rs.reverse.map (fun r => .pop (regByte r))

theorem pushesThenPops_cons (r : Reg) (rs : List Reg) :
    pushesThenPops (r :: rs) = .push (regByte r) :: (pushesThenPops rs ++ [.pop (regByte r)]) := by
  simp [pushesThenPops]

/-- The pushes and pops nest: the first register's PUSH and POP enclose the rest, which is balanced by induction. -/
theorem pushesThenPops_balanced {s : State} {rs : List Reg} (hm : s.mem.wf = true)
    (hrs : ∀ r ∈ rs, r ≠ Config.sp) (hlen : rs.length ≤ 256) :
    ∃ t, execAll (pushesThenPops rs) s = .next t ∧ StackBalanced rs.length s t := by
  induction rs generalizing s with
  | nil => exact ⟨s, rfl, fun _ => rfl, fun _ _ => rfl⟩
  | cons r rs ih =>
    obtain ⟨hr, hrs⟩ := List.forall_mem_cons.mp hrs
    have hpush := Completes.push (s := s) r
    obtain ⟨u, hu, hbal⟩ := ih (hpush.mem_wf hm) hrs (Nat.le_of_succ_le hlen)
    have hinner : StackBalanced rs.length (pushReg r s) u := ⟨hbal.reg, hbal.memRead⟩
    have houter := hinner.push_pop hm hr hlen
    refine ⟨(popReg r u).advance 2, ?_, houter.reg, houter.memRead⟩
    rw [pushesThenPops_cons, execAll_cons_of_next hpush.exec_eq, execAll_append_of_next hu,
      execAll_cons_of_next (Completes.pop r).exec_eq, execAll]

/-- Settles O34: the POP follows the PUSH at once, so it finds the pushed registers and the pushed cell. -/
theorem pushPopRoundTrip : Obligations.PushPopRoundTrip := by
  unfold Obligations.PushPopRoundTrip
  intro s r q hm hr hq
  have hcell : ((pushReg r s).advance 2).memRead (pushAddress s) = s.reg r :=
    (pushReg_memRead_pushAddress hm).trans (if_neg hr)
  have hreg := popReg_reg_of_pushed hq (fun p => State.advance_reg _ 2 p) hcell
  refine ⟨(popReg q ((pushReg r s).advance 2)).advance 2, ?_, ?_, ?_, ?_⟩
  · rw [execAll_cons_of_next (Completes.push r).exec_eq, execAll_cons_of_next (Completes.pop q).exec_eq, execAll]
  · exact (hreg q).trans (if_pos rfl)
  · exact (hreg 7).trans (if_neg hq.symm)
  · intro p hp
    exact (hreg p).trans (if_neg (List.ne_of_not_mem_cons hp))

/-- Settles O35: pushes and pops in reverse order are a balanced use of the stack. -/
theorem nestedPushesPop : Obligations.NestedPushesPop := by
  unfold Obligations.NestedPushesPop
  intro s rs hm hrs hlen
  obtain ⟨t, ht, hbal⟩ := pushesThenPops_balanced hm hrs hlen
  exact ⟨t, ht, hbal.reg⟩

end Sys2Proof.Machine

/-! PROOFS. JMP, JEQ and JNE: target or sequential advance, frame and faults, and the JMP to its own address. -/

namespace Sys2Proof.Machine

section Branch

variable {s t : State} {i : Instr} {r : Reg}

/-- A new `pc` is all that a jump changes. -/
theorem jump_frame (s : State) (p : PcWord) : SameRegsBut [] s (s.jump p) ∧ (s.jump p).fl = s.fl ∧
    SameMem s (s.jump p) ∧ (s.jump p).out = s.out ∧ (s.jump p).run = s.run :=
  ⟨fun _ _ => rfl, rfl, fun _ => rfl, rfl, rfl⟩

/-- The sequential advance is a jump to the next instruction, so it has the frame of one. -/
theorem advance_frame (s : State) (n : Nat) : SameRegsBut [] s (s.advance n) ∧ (s.advance n).fl = s.fl ∧
    SameMem s (s.advance n) ∧ (s.advance n).out = s.out ∧ (s.advance n).run = s.run :=
  jump_frame s (BitVec.ofNat 9 (s.pc.toNat + n))

theorem advance_two_pc_toNat (hpc : s.pc.toNat ≤ 256) : (s.advance 2).pc.toNat = s.pc.toNat + 2 :=
  s.advance_pc_toNat 2 (by omega)

/-- A conditional branch goes to its target where it is taken and to the next instruction where it is not, and
changes nothing else (`44_branch.md` R83, R85, R86). -/
theorem conditional_branch_completion {taken untaken : Prop} (hnot : untaken ↔ ¬ taken)
    (hjump : taken → Completes s i (s.jump (jumpTarget s r))) (hnext : untaken → Completes s i (s.advance 2)) :
    ∃ t, exec i s = .next t ∧ (taken → t.pc.toNat = (s.reg r).toNat) ∧
      (untaken → s.pc.toNat ≤ 256 → t.pc.toNat = s.pc.toNat + 2) ∧
      SameRegsBut [] s t ∧ t.fl = s.fl ∧ SameMem s t ∧ t.out = s.out ∧ t.run = s.run := by
  by_cases h : taken
  · have hn : ¬ untaken := fun hu => hnot.mp hu h
    exact ⟨_, (hjump h).exec_eq, fun _ => jumpTarget_toNat s r, fun hu => absurd hu hn, jump_frame s _⟩
  · exact ⟨_, (hnext (hnot.mpr h)).exec_eq, fun ht => absurd ht h, fun _ => advance_two_pc_toNat, advance_frame s 2⟩

/-- On the values of `FL` that a run reaches, the whole-byte test is the test of bit 0 (`10_state.md` R16). -/
theorem eq_one_iff_flagE {fl : Byte} (h : fl = 0x00 ∨ fl = 0x01 ∨ fl = 0x02 ∨ fl = 0x04) :
    fl = 0x01 ↔ flagE fl = true := by
  rcases h with rfl | rfl | rfl | rfl <;> decide

/-- After a CMP that set Equal, JEQ transfers and JNE does not (`44_branch.md` R85). -/
theorem branches_after_equal_cmp {p q : Reg} (h : exec (.cmp (regByte p) (regByte q)) s = .next t)
    (hfl : t.fl = 0x01) :
    (∃ u, exec (.jeq (regByte r)) t = .next u ∧ u.pc.toNat = (s.reg r).toNat) ∧
    (∃ u, exec (.jne (regByte r)) t = .next u ∧ (t.pc.toNat ≤ 256 → u.pc.toNat = t.pc.toNat + 2)) := by
  have hreg : t.reg r = s.reg r := by
    rw [(Completes.cmp p q).eq_of_exec h, State.advance_reg, State.setFl_reg]
  refine ⟨⟨_, (Completes.jeqTaken r hfl).exec_eq, ?_⟩, ⟨_, (Completes.jneUntaken r hfl).exec_eq, ?_⟩⟩
  · rw [State.jump_pc, jumpTarget_toNat, hreg]
  · exact advance_two_pc_toNat

/-- Of JEQ and JNE on the same register exactly one is taken (`44_branch.md` R86). -/
theorem one_of_jeq_jne_taken (r : Reg) (hpc : s.pc.toNat ≤ 256) :
    ∃ t u, exec (.jeq (regByte r)) s = .next t ∧ exec (.jne (regByte r)) s = .next u ∧
      ((t.pc.toNat = (s.reg r).toNat ∧ u.pc.toNat = s.pc.toNat + 2) ∨
       (u.pc.toNat = (s.reg r).toNat ∧ t.pc.toNat = s.pc.toNat + 2)) := by
  have htarget := jumpTarget_toNat s r
  have hnext := advance_two_pc_toNat hpc
  by_cases hfl : s.fl = 0x01
  · exact ⟨_, _, (Completes.jeqTaken r hfl).exec_eq, (Completes.jneUntaken r hfl).exec_eq, .inl ⟨htarget, hnext⟩⟩
  · exact ⟨_, _, (Completes.jeqUntaken r hfl).exec_eq, (Completes.jneTaken r hfl).exec_eq, .inr ⟨htarget, hnext⟩⟩

/-- A JMP of a register that holds the JMP's own address completes with the state it began in. -/
theorem step_of_jump_to_itself (hr : s.run = .running) (hpc : s.pc.toNat ≤ 254)
    (hop : Memory.read s.mem s.pc.toNat = opcodes .jmp) (ha : Memory.read s.mem (s.pc.toNat + 1) = regByte r)
    (hself : (s.reg r).toNat = s.pc.toNat) : step s = .next s := by
  have htarget : jumpTarget s r = s.pc := BitVec.eq_of_toNat_eq ((jumpTarget_toNat s r).trans hself)
  calc step s
    _ = exec (.jmp (regByte r)) s := by
      rw [step, stepWith_of_opcode opcodes_distinct hr hop (Nat.add_le_add_right hpc 1), ha, Mnemonic.withOperands]
    _ = .next (s.jump (jumpTarget s r)) := (Completes.jmp r).exec_eq
    _ = .next s := by rw [htarget, State.jump]

/-- A state that steps to itself is where every run from it ends. -/
theorem core_run_of_step_self (h : step s = .next s) (k : Nat) : Host.Core.run Sys2Proof.core k s = .next s := by
  induction k with
  | zero => rfl
  | succ k ih => rw [core_run_of_next k h, ih]

end Branch

/-- Settles O7: the completion of JMP field by field, its faults by the lemma about a row with one register. -/
theorem jmpRule : Obligations.JmpRule := by
  unfold Obligations.JmpRule
  refine ⟨fun _ => rfl, ?_, faults_of_one_register (m := .jmp) rfl⟩
  intro s r
  exact ⟨_, (Completes.jmp r).exec_eq, jumpTarget_toNat s r, jump_frame s _⟩

/-- Settles O8: a conditional branch taken on Equal, with the faults of a row with one register. -/
theorem jeqRule : Obligations.JeqRule := by
  unfold Obligations.JeqRule
  obtain ⟨hexec, hstep, hrange⟩ := faults_of_one_register (m := .jeq) rfl
  refine ⟨fun _ => rfl, ?_, hexec, hstep, hrange, fun _ => eq_one_iff_flagE, ?_⟩
  · intro s r
    exact conditional_branch_completion Iff.rfl (.jeqTaken r) (.jeqUntaken r)
  · intro s t p q r h hfl
    exact branches_after_equal_cmp h hfl

/-- Settles O9: a conditional branch taken where JEQ is not, with the faults of a row with one register. -/
theorem jneRule : Obligations.JneRule := by
  unfold Obligations.JneRule
  obtain ⟨hexec, hstep, hrange⟩ := faults_of_one_register (m := .jne) rfl
  refine ⟨fun _ => rfl, ?_, hexec, hstep, hrange, ?_, ?_⟩
  · intro s r
    exact conditional_branch_completion not_not.symm (.jneTaken r) (.jneUntaken r)
  · intro fl h
    rw [ne_eq, eq_one_iff_flagE h, Bool.not_eq_true]
  · intro s r hpc
    exact one_of_jeq_jne_taken r hpc

/-- Settles O36: the state steps to itself, so every run from it stays there. -/
theorem jumpToItselfLoops : Obligations.JumpToItselfLoops := by
  unfold Obligations.JumpToItselfLoops
  intro s r hr hpc hop ha hself
  exact core_run_of_step_self (step_of_jump_to_itself hr hpc hop ha hself)

end Sys2Proof.Machine

/-! PROOFS. HLT: its completion with `pc` and frame, and the stopped machine it leaves. -/

namespace Sys2Proof.Machine

section Halt

variable {s : State}

theorem halt_advance_frame (s : State) (n : Nat) : SameRegsBut [] s (s.advance n).halt ∧
    (s.advance n).halt.fl = s.fl ∧ SameMem s (s.advance n).halt ∧ (s.advance n).halt.out = s.out := by
  obtain ⟨hregs, hfl, hmem, hout, -⟩ := advance_frame s n
  exact ⟨hregs, hfl, hmem, hout⟩

theorem halt_advance_one_pc_toNat (hpc : s.pc.toNat ≤ 256) : (s.advance 1).halt.pc.toNat = s.pc.toNat + 1 :=
  s.advance_pc_toNat 1 (by omega)

/-- HLT is one byte, so a running machine completes it at every address with a cell (`45_halt.md` R88). -/
theorem step_of_hlt_opcode (hr : s.run = .running) (hpc : s.pc.toNat ≤ 255)
    (hop : Memory.read s.mem s.pc.toNat = opcodes .hlt) : step s = .next (s.advance 1).halt :=
  calc step s
    _ = exec .hlt s := stepWith_of_opcode (m := .hlt) opcodes_distinct hr hop hpc
    _ = .next (s.advance 1).halt := Completes.hlt.exec_eq

end Halt

/-- Settles O10: the completion of HLT field by field, and the step that reaches it from the byte at `pc`. -/
theorem hltRule : Obligations.HltRule := by
  unfold Obligations.HltRule
  refine ⟨rfl, ?_, ?_⟩
  · intro s
    obtain ⟨hregs, hfl, hmem, hout⟩ := halt_advance_frame s 1
    exact ⟨_, Completes.hlt.exec_eq, State.halt_run _, hregs, hfl, hmem, hout, halt_advance_one_pc_toNat⟩
  · intro s hr hpc hop
    have hnext := halt_advance_one_pc_toNat (s := s) (by omega)
    exact ⟨_, step_of_hlt_opcode hr hpc hop, State.halt_run _, hnext, halt_advance_frame s 1⟩

/-- Settles O24: a stopped state steps to itself, so every run from it stays there, and none of it is a step of the
engine. -/
theorem stoppedIsTerminal : Obligations.StoppedIsTerminal := by
  unfold Obligations.StoppedIsTerminal
  intro s hr
  exact ⟨not_engineStep_of_stopped hr, core_run_of_step_self (step_of_stopped hr)⟩

end Sys2Proof.Machine

/-! PROOFS. The faults: their codes, what raising one changes, and which of them an instruction at `pc` takes. -/

namespace Sys2Proof.Machine

/-- Settles O23, by the definition of `Fault.code`. -/
theorem faultCodes : Obligations.FaultCodes := by
  unfold Obligations.FaultCodes
  exact ⟨fun _ _ => rfl, fun _ => rfl, fun _ _ _ => rfl, fun _ => rfl⟩

/-- Settles O21: a completed instruction records no fault, and every other step changes `run` at most. -/
theorem faultsArePrecise : Obligations.FaultsArePrecise := by
  unfold Obligations.FaultsArePrecise
  intro s t f hr h hf
  have hstopped : t.run ≠ .running := by simp [hf]
  refine ⟨?_, not_engineStep_of_stopped hstopped⟩
  rcases step_completes_or_only_run h with ⟨-, i, -, hc⟩ | ⟨r, rfl⟩
  · exact absurd hf (hc.not_faulted hr f)
  · obtain rfl : r = .faulted f := hf
    rfl

/-! ### The matrix of instructions and faults. -/

section Matrix

variable {s : State} {m : Mnemonic} {a b : Byte}

theorem eq_regByte_of_le (ha : a.toNat ≤ 7) : ∃ r : Reg, a = regByte r :=
  isRegIndex_iff.mp (decide_eq_true ha)

theorem format_eq_rr_of_mul_or_cmp (hm : m = .mul ∨ m = .cmp) : m.format = .rr := by
  rcases hm with rfl | rfl <;> rfl

/-- A row is well-formed when its first operand, if it has one, is a register, and for MUL and CMP the second too
(`30_encoding.md` R52). -/
theorem withOperands_wf (ha : m.arity = 0 ∨ a.toNat ≤ 7) (hb : (m ≠ .mul ∧ m ≠ .cmp) ∨ b.toNat ≤ 7) :
    (m.withOperands a b).wf = true := by
  have hreg : m.arity ≠ 0 → isRegIndex a = true := fun hm => decide_eq_true (ha.resolve_left hm)
  cases m with
  | hlt => rfl
  | ldi | prn | push | pop | jmp | jeq | jne => exact hreg (by decide)
  | mul | cmp =>
    have hreg_b : isRegIndex b = true := decide_eq_true (hb.resolve_left (by decide))
    exact Bool.and_eq_true_iff.mpr ⟨hreg (by decide), hreg_b⟩

/-- A running machine whose row fits and is well-formed with the bytes at `pc` completes it and takes no fault. -/
theorem step_not_faulted_of_wf (hr : s.run = .running) (hop : Memory.read s.mem s.pc.toNat = opcodes m)
    (hfit : s.pc.toNat + m.arity ≤ 255)
    (hw : (m.withOperands (Memory.read s.mem (s.pc.toNat + 1)) (Memory.read s.mem (s.pc.toNat + 2))).wf = true) :
    ∃ t, step s = .next t ∧ ∀ f, t.run ≠ .faulted f := by
  obtain ⟨t, hc⟩ := exists_completes s hw
  exact ⟨t, (stepWith_of_opcode opcodes_distinct hr hop hfit).trans hc.exec_eq, hc.not_faulted hr⟩

end Matrix

/-- Settles O19: one lemma about a step for each fault in its order, and completion when none of them applies. -/
theorem faultMatrix : Obligations.FaultMatrix := by
  unfold Obligations.FaultMatrix
  refine fun s hr _ => ⟨fun hpc => stepWith_of_pc_eq_256 hr hpc, fun hpc op hop => ⟨?_, fun m hm => ?_⟩⟩
  · intro hnone
    subst hop
    exact stepWith_of_illegal_opcode hr hpc (decodeOpcode_eq_none_iff.mp hnone)
  · obtain rfl : opcodes m = op := decodeOpcode_sound hm
    refine ⟨stepWith_of_truncated opcodes_distinct hr hpc hop, fun hfit a b ha hb => ⟨?_, ?_, ?_⟩⟩
    · intro harity hinv
      exact step_of_invalid_operand_a hr hop harity hfit ha hinv
    · intro hrow hvalid hinv
      obtain ⟨r, rfl⟩ := eq_regByte_of_le hvalid
      exact step_of_invalid_operand_b hr hop (format_eq_rr_of_mul_or_cmp hrow) hfit ha hb hinv
    · intro hvalid_a hvalid_b
      subst ha hb
      exact step_not_faulted_of_wf hr hop hfit (withOperands_wf hvalid_a hvalid_b)

end Sys2Proof.Machine

/-! PROOFS. The launches at the edges: the image that is too long, and the empty one. -/

namespace Sys2Proof.Machine

/-- The boundary of `70_reset_and_hazards.md` R113, whatever `SP_RESET` is. -/
theorem launch_of_too_long {image : List Byte} (h : 256 < image.length) (spReset : Byte) :
    launch image spReset = .refused (.imageTooLong image.length) :=
  if_neg (Nat.not_le.mpr h)

/-- Settles O38: `launch_of_too_long` at the default `SP_RESET`. -/
theorem longImageRefused : Obligations.LongImageRefused := by
  unfold Obligations.LongImageRefused
  exact fun _ h => launch_of_too_long h Config.spReset

theorem opcodes_ne_zero : ∀ m, opcodes m ≠ 0x00 := decodeOpcode_eq_none_iff.mp rfl

/-- Settles O39: the reset state fetches the unloaded byte 0x00, which is no opcode. -/
theorem emptyImageFaults : Obligations.EmptyImageFaults := by
  unfold Obligations.EmptyImageFaults
  have hlaunch : launch [] = .next State.reset := launchState.2
  have hstep : step State.reset = .next (State.reset.raise (.illegalInstruction 0x00 0)) :=
    stepWith_of_illegal_opcode rfl (Nat.zero_le _) opcodes_ne_zero
  exact ⟨State.reset, hlaunch, hstep, rfl⟩

end Sys2Proof.Machine
